-- ==== Sys2Proof/Word.lean ====
section
/-! DEFINITION. The one word type of the hardware: a byte of 8 bits (spec 00_scope.md R9). -/

namespace Sys2Proof

/-- A byte: 8 bits, read as an unsigned number 0..255 (R9). Every register, memory cell and operand is one. -/
abbrev Byte := BitVec 8

/-- The index of a general register, 0..7 (R13). -/
abbrev RegIx := Fin 8

end Sys2Proof
end

