-- ==== Sys2Proof/Config.lean ====
section
/-! DEFINITION. What is fixed for one machine: the sizes of spec 00_scope.md R8, and the parameters R8 lets a model
take as arguments (ARITH_POLICY, TRACE_ENABLED, RESET_E, OPCODE_MAP). Their default values stand in Decode.lean
and Machine/Params.lean. -/

namespace Sys2Proof

/-- MEM_SIZE: 256 cells, addresses 0..255 (R8, R24). -/
abbrev Config.memSize : Nat := 256

/-- SP_INDEX: R7 is the stack pointer by convention only (R8, R15). -/
def Config.spIndex : RegIx := 7

/-- LOAD_BASE: the program image is loaded from address 0 (R8, R35). -/
def Config.loadBase : Nat := 0

/-- RESET_PC: pc at reset and at the start of execution (R8, R28, decision D4; assumption log 5). -/
def Config.resetPc : Nat := 0

/-- ARITH_POLICY (R8, R75): what an ADD or SUB result outside 0..255 does. -/
inductive ArithPolicy where
  /-- Reduce the result modulo 256. -/
  | wrap
  /-- Raise ArithRange and write nothing. -/
  | fault
  deriving DecidableEq, Repr

/-- OPCODE_MAP (R8, R49): the opcode byte of each of the nine mnemonics. -/
structure OpcodeMap where
  hlt : Byte
  ldi : Byte
  prn : Byte
  cmp : Byte
  jmp : Byte
  jeq : Byte
  jne : Byte
  add : Byte
  sub : Byte
  deriving DecidableEq, Repr

/-- The parameters of R8 that a model may take as arguments. No step changes them. -/
structure Params where
  /-- ARITH_POLICY. -/
  arithPolicy : ArithPolicy
  /-- TRACE_ENABLED (R96). -/
  traceEnabled : Bool
  /-- RESET_E: the equal flag at reset (R20; 93_implementation_defined.md I7). -/
  resetE : Bool
  /-- OPCODE_MAP (R49). -/
  opcodeMap : OpcodeMap
  deriving DecidableEq, Repr

end Sys2Proof
end

