-- ==== Sys2Proof/Syntax.lean ====
section
/-! DEFINITION. The instruction set: nine instructions, one constructor each (spec 00_scope.md R2, 30_encoding.md R49).
A register operand is the WHOLE operand byte (R46, decision D23): an index of 8 or more is decoded as it stands and
raises OutOfRange when the instruction executes, so an operand here is a byte and not a register name. -/

namespace Sys2Proof

/-- The nine instructions with their operands `a` (the byte at pc + 1) and `b` or `imm` (the byte at pc + 2). -/
inductive Instr where
  /-- Halt the engine (R73). -/
  | hlt
  /-- Load immediate (R67). -/
  | ldi (a imm : Byte)
  /-- Print register (R68). -/
  | prn (a : Byte)
  /-- Compare for equality (R69). -/
  | cmp (a b : Byte)
  /-- Jump to the address in a register (R70). -/
  | jmp (a : Byte)
  /-- Jump if equal (R71). -/
  | jeq (a : Byte)
  /-- Jump if not equal (R72). -/
  | jne (a : Byte)
  /-- Add (R76). -/
  | add (a b : Byte)
  /-- Subtract (R77). -/
  | sub (a b : Byte)
  deriving DecidableEq, Repr

/-- The names of the opcode map's nine entries (R49). -/
inductive Mnemonic where
  | hlt | ldi | prn | cmp | jmp | jeq | jne | add | sub
  deriving DecidableEq, Repr

/-- Every mnemonic once, in the order of R49's table. -/
def Mnemonic.all : List Mnemonic := [.hlt, .ldi, .prn, .cmp, .jmp, .jeq, .jne, .add, .sub]

/-- The opcode-map entry an instruction belongs to. -/
def Instr.mnemonic : Instr → Mnemonic
  | .hlt => .hlt
  | .ldi _ _ => .ldi
  | .prn _ => .prn
  | .cmp _ _ => .cmp
  | .jmp _ => .jmp
  | .jeq _ => .jeq
  | .jne _ => .jne
  | .add _ _ => .add
  | .sub _ _ => .sub

/-- The register operands in the order in which they are validated: a first, then b (R59, R62). -/
def Instr.regOperands : Instr → List Byte
  | .hlt => []
  | .ldi a _ => [a]
  | .prn a => [a]
  | .cmp a b => [a, b]
  | .jmp a => [a]
  | .jeq a => [a]
  | .jne a => [a]
  | .add a b => [a, b]
  | .sub a b => [a, b]

/-- The ALU's own operation selector: a closed set of two (R57, R78). -/
inductive AluOp where
  | add | sub
  deriving DecidableEq, Repr

end Sys2Proof
end

