-- ==== Sys2Proof/WellFormed.lean ====
section
/-! DEFINITION. Which instructions name only registers that exist (spec 10_state.md R16), and which opcode maps give
the nine mnemonics nine different bytes (30_encoding.md R49, R50). An ill-formed instruction still runs: it
raises OutOfRange (R85). -/

namespace Sys2Proof

/-- An operand byte names a register when it is below 8; it is not masked to 3 bits (R16, R46). -/
def namesRegister (b : Byte) : Bool := b.toNat < 8

/-- Every register operand names a register (R16). -/
def Instr.wf (i : Instr) : Bool := i.regOperands.all namesRegister

/-- The byte the map gives a mnemonic. -/
def OpcodeMap.opcode (m : OpcodeMap) : Mnemonic → Byte
  | .hlt => m.hlt
  | .ldi => m.ldi
  | .prn => m.prn
  | .cmp => m.cmp
  | .jmp => m.jmp
  | .jeq => m.jeq
  | .jne => m.jne
  | .add => m.add
  | .sub => m.sub

/-- No two mnemonics share an opcode byte: each byte of the map has one meaning (R50). -/
def OpcodeMap.wf (m : OpcodeMap) : Bool := decide (Mnemonic.all.map m.opcode).Nodup

end Sys2Proof
end

