-- ==== Sys2Proof/Decode.lean ====
section
/-! DEFINITION. The dispatcher's lookup and the decoder (spec 30_encoding.md R42 to R53, 40_engine_cycle.md R61), then
the encoder, written from the same tables. Both are total. -/

namespace Sys2Proof

/-- OPCODE_MAP of R49. LDI and PRN are the source's values; the other seven are decision D3, taken from general
knowledge. PRESUMED, unsafe: assumption log 2. -/
def defaultOpcodeMap : OpcodeMap where
  hlt := 0x01
  ldi := 0x82
  prn := 0x47
  cmp := 0xA7
  jmp := 0x54
  jeq := 0x55
  jne := 0x56
  add := 0xA0
  sub := 0xA1

/-- The number of operand bytes of each opcode (R45, R49). -/
def Mnemonic.operandCount : Mnemonic → Nat
  | .hlt => 0
  | .prn | .jmp | .jeq | .jne => 1
  | .ldi | .cmp | .add | .sub => 2

/-- The length of an instruction in bytes: 1 + the operand count, from the map and not from the AA field (R42, R52). -/
def Mnemonic.length (k : Mnemonic) : Nat := 1 + k.operandCount

/-- Bits 7:6 of an opcode byte, the operand count by convention (R44). Documentation: the decoder does not read it. -/
def opcodeAA (op : Byte) : Nat := (op >>> 6).toNat

/-- Bit 5, set when the ALU performs the instruction (R44). Documentation. -/
def opcodeB (op : Byte) : Bool := op.getLsbD 5

/-- Bit 4, set when the instruction sets pc itself (R44). Documentation. -/
def opcodeC (op : Byte) : Bool := op.getLsbD 4

/-- Bits 3:0, the instruction identifier (R44). Documentation. -/
def opcodeDDDD (op : Byte) : Nat := (op &&& 0x0F).toNat

/-- The dispatcher's lookup: a byte matches an entry only if all 8 bits are equal (R50). -/
def OpcodeMap.lookup (m : OpcodeMap) (op : Byte) : Option Mnemonic :=
  Mnemonic.all.find? fun k => m.opcode k == op

/-- The instruction of an entry with the two operand bytes that follow the opcode; a byte the instruction does not
use has no effect (R43, R45, R48). -/
def Mnemonic.withOperands (k : Mnemonic) (a b : Byte) : Instr :=
  match k with
  | .hlt => .hlt
  | .ldi => .ldi a b
  | .prn => .prn a
  | .cmp => .cmp a b
  | .jmp => .jmp a
  | .jeq => .jeq a
  | .jne => .jne a
  | .add => .add a b
  | .sub => .sub a b

/-- What decoding answers: an instruction, or the byte that no entry of the map matches (R51, R61). -/
inductive Decoded where
  | instr (i : Instr)
  | unknownOpcode (op : Byte)
  deriving DecidableEq, Repr

/-- Decode the three fetched bytes (R59, R61). -/
def decodeFetched (m : OpcodeMap) (op a b : Byte) : Decoded :=
  match m.lookup op with
  | none => .unknownOpcode op
  | some k => .instr (k.withOperands a b)

/-- What reading one instruction off a sequence of bytes answers. -/
inductive Parsed where
  /-- An instruction and the bytes after it. -/
  | instr (i : Instr) (rest : List Byte)
  /-- The first byte is in no entry of the map (R51). -/
  | unknownOpcode (op : Byte)
  /-- The bytes end before the instruction does. The engine never meets this: it always fetches three (R60). -/
  | truncated
  deriving DecidableEq, Repr

/-- Read one instruction off the front of a byte sequence: 1, 2 or 3 bytes (R42, R43). -/
def decodeBytes (m : OpcodeMap) : List Byte → Parsed
  | [] => .truncated
  | op :: rest =>
    match m.lookup op with
    | none => .unknownOpcode op
    | some k =>
      match k.operandCount, rest with
      | 0, rest => .instr (k.withOperands 0 0) rest
      | 1, a :: rest => .instr (k.withOperands a 0) rest
      | 2, a :: b :: rest => .instr (k.withOperands a b) rest
      | _, _ => .truncated

/-- The operand bytes of an instruction in address order (R43, R45). -/
def Instr.operandBytes : Instr → List Byte
  | .hlt => []
  | .ldi a imm => [a, imm]
  | .prn a => [a]
  | .cmp a b => [a, b]
  | .jmp a => [a]
  | .jeq a => [a]
  | .jne a => [a]
  | .add a b => [a, b]
  | .sub a b => [a, b]

/-- The bytes of an instruction under a map, in address order (R43, R55). -/
def encodeWith (m : OpcodeMap) (i : Instr) : List Byte := m.opcode i.mnemonic :: i.operandBytes

/-- The bytes of an instruction under the map of R49. -/
def encode (i : Instr) : List Byte := encodeWith defaultOpcodeMap i

/-- The bytes of a sequence of instructions, one after the other (R55, R56: no pseudo-instructions). -/
def assemble (m : OpcodeMap) (is : List Instr) : List Byte := is.flatMap (encodeWith m)

/-- Read at most `n` instructions until the bytes are used up; none where a byte is unknown or the bytes end inside
an instruction. -/
def disassemble (m : OpcodeMap) : Nat → List Byte → Option (List Instr)
  | _, [] => some []
  | 0, _ :: _ => none
  | n + 1, bs =>
    match decodeBytes m bs with
    | .instr i rest => (disassemble m n rest).map (i :: ·)
    | _ => none

/-- Byte `k` of a word whose bits are numbered from the first byte's least significant bit. -/
def byteOfWord (w k : Nat) : Byte := BitVec.ofNat 8 (w / 2 ^ (8 * k))

/-- The instruction the decoder reads, under the map of R49, from an instruction whose low `nbits` bits are those of
`w` and whose higher bits are zero: byte 0 is the opcode, byte 1 operand a, byte 2 operand b (R43). -/
def decodeTableWord (nbits w : Nat) : Option Instr :=
  let v := w % 2 ^ nbits
  match decodeFetched defaultOpcodeMap (byteOfWord v 0) (byteOfWord v 1) (byteOfWord v 2) with
  | .instr i => some i
  | .unknownOpcode _ => none

end Sys2Proof
end

