-- ==== Sys2Proof/Machine/Params.lean ====
section
/-! DEFINITION. The values of the parameters of spec 00_scope.md R8. -/

namespace Sys2Proof.Machine

/-- The parameter values of R8: ARITH_POLICY = wrap, TRACE_ENABLED = false, RESET_E = 0 and the OPCODE_MAP of R49.
UNVERIFIED, unsafe: the source gives none of the first three and two bytes of the fourth (assumption log 1, 2, 3, 6). -/
def defaultParams : Params where
  arithPolicy := .wrap
  traceEnabled := false
  resetE := false
  opcodeMap := defaultOpcodeMap

end Sys2Proof.Machine
end

