-- ==== Sys2Proof/Machine/State.lean ====
section
/-! DEFINITION. The state of the machine as plain data (spec 10_state.md), its reset value (R28, R98), and the two
reasons for which a step can stop. -/

namespace Sys2Proof.Machine

/-- The fatal conditions with the information each records (R23, R81). Taking one is a next state (R82). -/
inductive Condition where
  /-- The opcode byte at pc is in no entry of the opcode map (R83). -/
  | unknownOpcode (op : Byte) (pc : Nat)
  /-- A fetch address is 256 or more; the lowest such address is recorded (R84). -/
  | memoryFault (addr pc : Nat)
  /-- A register operand is 8 or more; the operand byte is recorded (R85). -/
  | outOfRange (index : Byte) (pc : Nat)
  /-- The ALU is asked for an operation it lacks. No instruction raises it (R78, R86). -/
  | unsupportedALUOperation (pc : Nat)
  /-- An ADD or SUB result outside 0..255, only under ARITH_POLICY = fault (R87). -/
  | arithRange (pc : Nat)
  deriving DecidableEq, Repr

/-- The pc a condition records (R81). -/
def Condition.pc : Condition → Nat
  | .unknownOpcode _ pc => pc
  | .memoryFault _ pc => pc
  | .outOfRange _ pc => pc
  | .unsupportedALUOperation pc => pc
  | .arithRange pc => pc

/-- The halt status (R23). -/
inductive Status where
  /-- The spec's None: no step has ended the run. -/
  | none
  /-- HLT was executed: the normal end. -/
  | halted
  /-- A fatal condition ended the run. -/
  | fatal (c : Condition)
  deriving DecidableEq, Repr

/-- Why a load is refused (R40, decision D16). -/
inductive LoadRefusal where
  /-- More than 256 words. -/
  | loadTooLong
  /-- A word above 255. -/
  | loadBadWord
  deriving DecidableEq, Repr

/-- Whether the one load has happened (R40, R41). State the spec implies: DEDUCED, assumption log 13. -/
inductive LoadPhase where
  | awaiting
  | loaded
  | refused (r : LoadRefusal)
  deriving DecidableEq, Repr

/-- One TRACE record: the fetched bytes and the registers before the instruction executes (R96). -/
structure TraceRecord where
  pc : Nat
  op : Byte
  a : Byte
  b : Byte
  x : Vector Byte 8
  deriving DecidableEq, Repr

/-- The contents of memory: the cells that do not hold 0, at strictly rising addresses (Memory.wf in Ops.lean). An
address that is not listed reads 0, the reset contents of R24. -/
abbrev Memory := List Host.Cell

/-- Everything the spec gives the machine (10_state.md), the load phase, the trace channel, and the parameters of
00_scope.md R8. INVENTORY.md lists each field with its rule. -/
structure State where
  /-- The general registers R0..R7 (R13). -/
  x : Vector Byte 8
  /-- The program counter, a natural number that never wraps (R17, R19). -/
  pc : Nat
  /-- The equal flag (R20). -/
  E : Bool
  /-- The running flag: true in RUNNING, false in HALTED (R22). -/
  running : Bool
  /-- The halt status (R23). -/
  status : Status
  /-- Memory (R24). -/
  mem : Memory
  /-- The output channel OUT, oldest value first (R26). -/
  out : List Byte
  /-- Whether the one load has happened (R41). -/
  load : LoadPhase
  /-- The trace channel, oldest record first (R96). Assumption log 15. -/
  trace : List TraceRecord
  /-- The parameters of R8, fixed for the machine. Assumption log 1. -/
  params : Params
  deriving DecidableEq, Repr

/-- The state after reset under given parameters (R28, R98): HALTED until the load completes. E is RESET_E (log 6). That the
load phase is awaiting is DEDUCED (log 13), and that the trace channel is empty is a DESIGN CHOICE, unsafe (log 15): R28 gives
neither a row. -/
def State.resetWith (p : Params) : State where
  x := Vector.replicate 8 0
  pc := Config.resetPc
  E := p.resetE
  running := false
  status := .none
  mem := []
  out := []
  load := .awaiting
  trace := []
  params := p

/-- The state after reset (R28, R98), under the parameter values of R8. -/
def State.reset : State := State.resetWith defaultParams

/-- The reasons for which the machine stops without a next state. -/
inductive Fault where
  /-- Raised by `step` alone, in HALTED: "STEP is not enabled, and the core takes no step" (R64). Safe: the hardware
  takes no step there either. Assumption log 12. -/
  | stepNotEnabled
  deriving DecidableEq, Repr

/-- The reasons for which an instruction has no meaning in the model. -/
inductive Refusal where
  /-- An instruction of the opcode table that the model gives no meaning. Raised by no arm: all nine have theirs.
  Safe. -/
  | notModelled (mnemonic : String)
  deriving DecidableEq, Repr

end Sys2Proof.Machine
end

