-- ==== Sys2Proof/Machine/Ops.lean ====
section
/-! DEFINITION. The named operations every meaning is built from, the pseudocode primitives of spec 00_scope.md R10:
memory cells, registers, pc, OUT, ending a run, and the three-byte fetch with its trace record. -/

namespace Sys2Proof.Machine

/-! ## Memory cells -/

/-- The byte a cell holds; a cell that is not listed holds 0 (R24). -/
def Memory.get : Memory → Nat → Byte
  | [], _ => 0
  | (a, v) :: rest, addr => if a = addr then v else Memory.get rest addr

/-- Put a byte into a cell and keep the canonical form: writing 0 removes the entry. -/
def Memory.set : Memory → Nat → Byte → Memory
  | [], addr, v => if v = 0 then [] else [(addr, v)]
  | (a, w) :: rest, addr, v =>
    if addr < a then (if v = 0 then (a, w) :: rest else (addr, v) :: (a, w) :: rest)
    else if addr = a then (if v = 0 then rest else (a, v) :: rest)
    else (a, w) :: Memory.set rest addr v

/-- The listed cells rise strictly from `lo`, lie below MEM_SIZE and do not hold 0. -/
def Memory.wfFrom : Nat → Memory → Bool
  | _, [] => true
  | lo, (a, v) :: rest =>
    decide (lo ≤ a) && decide (a < Config.memSize) && decide (v ≠ 0) && Memory.wfFrom (a + 1) rest

/-- The canonical form: equal memories are equal lists. -/
def Memory.wf (m : Memory) : Bool := Memory.wfFrom 0 m

/-! ## Ending a run -/

/-- Take a fatal condition (R10, R82): status records it, running is cleared, nothing else changes. No return exists
beside it: "No trap returns and none nests" (R91). UNVERIFIED, unsafe: decision D11, assumption log 10. -/
def raise (c : Condition) (s : State) : State := { s with status := .fatal c, running := false }

/-- The normal end of a run: `halt(Halted)` (R10, R73). -/
def halt (s : State) : State := { s with status := .halted, running := false }

/-! ## Memory access -/

/-- What a memory read answers: the byte, or the state after MemoryFault was raised. -/
inductive Access where
  | value (v : Byte)
  | raised (t : State)
  deriving DecidableEq, Repr

/-- `MemRead(addr, 1)` (R30): the cell at 0..255, else MemoryFault(addr, pc). -/
def memRead (addr : Nat) (s : State) : Access :=
  if addr < Config.memSize then .value (Memory.get s.mem addr) else .raised (raise (.memoryFault addr s.pc) s)

/-- `MemWrite(addr, 1, v)` (R31), for the load interface alone; an address of 256 or more raises MemoryFault (R10). -/
def memWrite (addr : Nat) (v : Byte) (s : State) : State :=
  if addr < Config.memSize then { s with mem := Memory.set s.mem addr v } else raise (.memoryFault addr s.pc) s

/-! ## Registers, pc and OUT -/

/-- Read `x[r]` (R13): no register is hard-wired. -/
def State.reg (s : State) (r : RegIx) : Byte := s.x[r]

/-- Write `x[r]` (R13). -/
def State.setReg (s : State) (r : RegIx) (v : Byte) : State := { s with x := s.x.set r v }

/-- `pc <- target` (R10). A target is an unsigned register value, so at most 255 (R19). -/
def State.jumpTo (s : State) (target : Byte) : State := { s with pc := target.toNat }

/-- Advance pc by the instruction's length in natural-number arithmetic, with no wrap (R19, R63). -/
def State.advance (s : State) (n : Nat) : State := { s with pc := s.pc + n }

/-- `emit(v)`: append a value to OUT (R10, R26). It never stalls or fails (decision D17, assumption log 16). -/
def State.emit (s : State) (v : Byte) : State := { s with out := s.out ++ [v] }

/-! ## Fetch and trace -/

/-- What a fetch answers: the three bytes, or the state after MemoryFault was raised. -/
inductive Fetched where
  | bytes (op a b : Byte)
  | raised (t : State)
  deriving DecidableEq, Repr

/-- Fetch the bytes at pc, pc + 1 and pc + 2, whatever the instruction's length; the first address that is out of
range raises MemoryFault (R59, R60). -/
def fetch (s : State) : Fetched :=
  match memRead s.pc s with
  | .raised t => .raised t
  | .value op =>
    match memRead (s.pc + 1) s with
    | .raised t => .raised t
    | .value a =>
      match memRead (s.pc + 2) s with
      | .raised t => .raised t
      | .value b => .bytes op a b

/-- Emit one TRACE record when TRACE_ENABLED is true (R96): after the fetch, before decode. -/
def emitTrace (op a b : Byte) (s : State) : State :=
  if s.params.traceEnabled then { s with trace := s.trace ++ [⟨s.pc, op, a, b, s.x⟩] } else s

end Sys2Proof.Machine
end

