-- ==== Sys2Proof/Machine/Operands.lean ====
section
/-! DEFINITION. The operand forms (spec 30_encoding.md R45 to R47) and their validation (40_engine_cycle.md R62):
register indices are checked in operand order before the instruction changes any state. An immediate needs no form
of its own: the operand byte is the value (R47). -/

namespace Sys2Proof.Machine

/-- The register an operand byte names: the whole byte is compared against 8, not masked (R16, R46; decision D23,
assumption log 9). -/
def regIndex (b : Byte) : Option RegIx := if h : b.toNat < 8 then some ⟨b.toNat, h⟩ else none

/-- Run `k` on the register that operand `a` names, or raise OutOfRange(a, pc) with no other effect (R62, R85). -/
def withReg (a : Byte) (s : State) (k : RegIx → State) : State :=
  match regIndex a with
  | some r => k r
  | none => raise (.outOfRange a s.pc) s

/-- Run `k` on the two registers that operands `a` and `b` name; `a` is checked first (R62, R89). -/
def withRegs (a b : Byte) (s : State) (k : RegIx → RegIx → State) : State :=
  withReg a s fun ra => withReg b s fun rb => k ra rb

end Sys2Proof.Machine
end

