-- ==== Sys2Proof/Machine/Alu.lean ====
section
/-! DEFINITION. The ALU and its two instructions: ADD and SUB (spec 44_alu.md). The opcode fixes the selector: ADD
drives alu_op = ADD and SUB drives alu_op = SUB; no other instruction drives the ALU (30_encoding.md R57). -/

namespace Sys2Proof.Machine

/-- The exact result in the integers, before it is narrowed (R75). -/
def aluExact (op : AluOp) (u v : Byte) : Int :=
  match op with
  | .add => (u.toNat : Int) + (v.toNat : Int)
  | .sub => (u.toNat : Int) - (v.toNat : Int)

/-- The exact result lies in 0..255 (R79, R87). -/
def aluInRange (op : AluOp) (u v : Byte) : Bool := decide (0 ≤ aluExact op u v ∧ aluExact op u v ≤ 255)

/-- The ALU (R75): under `wrap` the exact result modulo 256; under `fault` none, the mark of ArithRange, when the exact
result lies outside 0..255 (decision D1, assumption log 3). -/
def alu (p : ArithPolicy) (op : AluOp) (u v : Byte) : Option Byte :=
  match p with
  | .wrap => some (BitVec.ofInt 8 (aluExact op u v))
  | .fault => if aluInRange op u v then some (BitVec.ofInt 8 (aluExact op u v)) else none

/-- x[a] <- alu(op, x[a], x[b]), pc <- pc + 3; both operands are read before the write (R76, R77). ArithRange is taken
before x[a] is written (R87). -/
def aluRegisters (op : AluOp) (a b : Byte) (s : State) : State :=
  withRegs a b s fun ra rb =>
    match alu s.params.arithPolicy op (s.reg ra) (s.reg rb) with
    | some v => (s.setReg ra v).advance 3
    | none => raise (.arithRange s.pc) s

/-- ADD (R76). -/
def execAdd (a b : Byte) (s : State) : Host.Outcome State Fault Refusal :=
  .next (aluRegisters .add a b s)

/-- SUB (R77): a is the minuend. -/
def execSub (a b : Byte) (s : State) : Host.Outcome State Fault Refusal :=
  .next (aluRegisters .sub a b s)

end Sys2Proof.Machine
end

