-- ==== Sys2Proof/Machine/Flags.lean ====
section
/-! DEFINITION. The one flag, E, and the one computation that sets it (spec 10_state.md R20, R21; 42_compare.md R69).
The ALU has no flag outputs (44_alu.md R75). -/

namespace Sys2Proof.Machine

/-- The comparator: 1 when the two bytes are equal, else 0 (R69). -/
def equalFlag (u v : Byte) : Bool := u == v

/-- `E <- v` (R10). -/
def State.setE (s : State) (v : Bool) : State := { s with E := v }

end Sys2Proof.Machine
end

