-- ==== Sys2Proof/Machine/Compare.lean ====
section
/-! DEFINITION. Comparison: CMP (spec 42_compare.md). -/

namespace Sys2Proof.Machine

/-- CMP (R69): E <- (x[a] = x[b]), pc <- pc + 3. -/
def execCmp (a b : Byte) (s : State) : Host.Outcome State Fault Refusal :=
  .next (withRegs a b s fun ra rb => (s.setE (equalFlag (s.reg ra) (s.reg rb))).advance 3)

end Sys2Proof.Machine
end

