-- ==== Sys2Proof/Machine/Control.lean ====
section
/-! DEFINITION. Control transfer: JMP, JEQ, JNE and HLT (spec 43_control.md). Every transfer is absolute, through a
register (R74). -/

namespace Sys2Proof.Machine

/-- Jump to x[a] when `taken`, else advance by the 2 bytes of the instruction. The operand is validated either way
(R71, R72; decision D8, assumption log 9). -/
def branch (taken : Bool) (a : Byte) (s : State) : State :=
  withReg a s fun r => if taken then s.jumpTo (s.reg r) else s.advance 2

/-- JMP (R70): pc <- x[a]. -/
def execJmp (a : Byte) (s : State) : Host.Outcome State Fault Refusal :=
  .next (branch true a s)

/-- JEQ (R71): if E = 1 then pc <- x[a] else pc <- pc + 2. -/
def execJeq (a : Byte) (s : State) : Host.Outcome State Fault Refusal :=
  .next (branch s.E a s)

/-- JNE (R72): if E = 0 then pc <- x[a] else pc <- pc + 2. DEDUCED, unsafe: the spec infers it by symmetry with JEQ
(decision D6, assumption log 7). -/
def execJne (a : Byte) (s : State) : Host.Outcome State Fault Refusal :=
  .next (branch (!s.E) a s)

/-- HLT (R73): running <- 0, status <- Halted, pc <- pc + 1. DEDUCED, unsafe: no source gives the final pc (90_conflicts.md
C9, 93_implementation_defined.md I6, assumption log 8). -/
def execHlt (s : State) : Host.Outcome State Fault Refusal :=
  .next ((halt s).advance 1)

end Sys2Proof.Machine
end

