-- ==== Sys2Proof/Machine/Data.lean ====
section
/-! DEFINITION. Data movement and output: LDI and PRN (spec 41_data_output.md). -/

namespace Sys2Proof.Machine

/-- LDI (R67): x[a] <- imm, pc <- pc + 3. -/
def execLdi (a imm : Byte) (s : State) : Host.Outcome State Fault Refusal :=
  .next (withReg a s fun r => (s.setReg r imm).advance 3)

/-- PRN (R68): emit(x[a]), pc <- pc + 2. -/
def execPrn (a : Byte) (s : State) : Host.Outcome State Fault Refusal :=
  .next (withReg a s fun r => (s.emit (s.reg r)).advance 2)

end Sys2Proof.Machine
end

