-- ==== Sys2Proof/Machine/Engine.lean ====
section
/-! DEFINITION. The stages of a step before the handler: fetch, trace and decode (spec 40_engine_cycle.md R59 to R61). -/

namespace Sys2Proof.Machine

/-- What the stages before the handler answer. -/
inductive FrontEnd where
  /-- MemoryFault or UnknownOpcode was raised: the state after the step. -/
  | ended (t : State)
  /-- An instruction was decoded: it runs in `t`, the state after the trace record. -/
  | decoded (i : Instr) (t : State)
  deriving DecidableEq, Repr

/-- Fetch three bytes, emit the trace record, decode (R59, stages 1 and 2). The record is emitted also for a fetch whose
opcode is unknown, and not for one that raises MemoryFault (R96). -/
def frontEnd (s : State) : FrontEnd :=
  match fetch s with
  | .raised t => .ended t
  | .bytes op a b =>
    match decodeFetched s.params.opcodeMap op a b with
    | .unknownOpcode o => .ended (raise (.unknownOpcode o s.pc) (emitTrace op a b s))
    | .instr i => .decoded i (emitTrace op a b s)

/-- Put the first `n` bytes of the word `w` into memory from address `addr` on (byte 0 first), and zero bytes after them
up to three bytes in all: the bytes one fetch reads. -/
def storeInstructionWord (m : Memory) (addr nbits w : Nat) : Memory :=
  let v := w % 2 ^ nbits
  Memory.set (Memory.set (Memory.set m addr (byteOfWord v 0)) (addr + 1) (byteOfWord v 1)) (addr + 2) (byteOfWord v 2)

/-- The pc itself where a fetch at it can succeed, else the entry point 0: no instruction can be placed where its
three-byte fetch would leave memory (R60). -/
def fetchablePc (pc : Nat) : Nat := if pc + 2 < Config.memSize then pc else Config.resetPc

end Sys2Proof.Machine
end

