-- ==== Sys2Proof/Machine/Step.lean ====
section
/-! DEFINITION. One STEP (spec 40_engine_cycle.md R59), and the placing of one instruction where STEP fetches next. -/

namespace Sys2Proof.Machine

/-- STEP: enabled only when running = 1 (R59); it runs one whole instruction or raises one fatal condition (R7). In
HALTED the core takes no step (R64; assumption log 12). -/
def step (s : State) : Host.Outcome State Fault Refusal :=
  if s.running then
    match frontEnd s with
    | .ended t => .next t
    | .decoded i t => exec i t
  else .fault .stepNotEnabled

/-- The state in which the very next step fetches and runs the instruction word `w`: the word is in memory at pc, and
the engine is RUNNING as after a load (assumption log 14). -/
def State.withFetchWord (s : State) (nbits w : Nat) : State :=
  { s with
    pc := fetchablePc s.pc
    mem := storeInstructionWord s.mem (fetchablePc s.pc) nbits w
    running := true
    status := .none
    load := .loaded }

end Sys2Proof.Machine
end

