-- ==== Sys2Proof/Machine/Load.lean ====
section
/-! DEFINITION. The load interface: the one bulk write that puts the program into memory and starts the engine (spec
20_memory.md R40, R41; 70_reset_and_hazards.md R99). It is a transaction of the host, not a STEP (00_scope.md R7). -/

namespace Sys2Proof.Machine

/-- What LOAD answers. -/
inductive LoadResult where
  /-- The image is in memory and the engine is RUNNING. -/
  | accepted (t : State)
  /-- Refused before any write; the engine stays HALTED and never runs (decision D16). -/
  | refused (r : LoadRefusal) (t : State)
  /-- No load is accepted now: during a run, after one, or after an earlier load (R41). The core does not change. -/
  | notAccepted
  deriving DecidableEq, Repr

/-- The state of the core after LOAD was called in `s`. -/
def LoadResult.stateFrom (s : State) : LoadResult → State
  | .accepted t => t
  | .refused _ t => t
  | .notAccepted => s

/-- MemWrite the words in order from `addr` on (R40). -/
def writeImage : Nat → List Nat → State → State
  | _, [], s => s
  | addr, w :: ws, s => writeImage (addr + 1) ws (memWrite addr (BitVec.ofNat 8 w) s)

/-- The writes that start execution (R40, R99): pc <- 0, E <- 0, running <- 1. E takes RESET_E, which is 0 by default
(DEDUCED, assumption log 6). -/
def startEngine (s : State) : State :=
  { s with pc := Config.resetPc, E := s.params.resetE, running := true, load := .loaded }

/-- LOAD(w_0, …, w_(n-1)) (R40): the core accepts it once, after reset and before execution (R41). -/
def loadProgram (ws : List Nat) (s : State) : LoadResult :=
  if s.load = .awaiting ∧ s.running = false then
    if Config.memSize < ws.length then .refused .loadTooLong { s with load := .refused .loadTooLong }
    else if ws.any (fun w => decide (255 < w)) then .refused .loadBadWord { s with load := .refused .loadBadWord }
    else .accepted (startEngine (writeImage Config.loadBase ws s))
  else .notAccepted

end Sys2Proof.Machine
end

