-- ==== Sys2Proof/Machine/HostSide.lean ====
section
/-! DEFINITION. What the spec records of the host around the core: the program file's format (spec 30_encoding.md R54),
the console text of OUT (41_data_output.md R68, 60_exceptions.md R94), the exit status of a run (R90), and the
observation of a run that has ended (40_engine_cycle.md R65). No step of the core reads any of it. -/

namespace Sys2Proof.Machine

/-! ## The program file (R54) -/

/-- What the reader makes of one line of text. -/
inductive FileLine where
  /-- The line is not included: its first character is neither 0 nor 1. -/
  | skipped
  /-- The line holds one instruction word; LOAD refuses one above 255 (R40). -/
  | word (w : Nat)
  /-- The line is included and is not a base-2 number. The spec states nothing here: refused by this name (DESIGN
  CHOICE, safe: assumption log 20). -/
  | unreadable
  deriving DecidableEq, Repr

/-- "everything from a `#` character onward on that line is discarded as comment" (R54). -/
def stripComment (line : List Char) : List Char := line.takeWhile (· ≠ '#')

/-- White space inside a line. -/
def isBlankChar (c : Char) : Bool := c = ' ' || c = '\t' || c = '\r' || c = '\n'

/-- "the remaining trimmed text" (R54): no white space at either end. -/
def trimLine (line : List Char) : List Char :=
  ((line.dropWhile isBlankChar).reverse.dropWhile isBlankChar).reverse

/-- Read base-2 digits onto an accumulator. -/
def parseBits : Nat → List Char → Option Nat
  | acc, [] => some acc
  | acc, c :: rest =>
    if c = '0' then parseBits (2 * acc) rest else if c = '1' then parseBits (2 * acc + 1) rest else none

/-- Read one line: "a line is included only if its first character is '0' or '1'" (R54). -/
def parseLine : List Char → FileLine
  | [] => .skipped
  | c :: rest =>
    if c = '0' ∨ c = '1' then
      match parseBits 0 (trimLine (stripComment (c :: rest))) with
      | some w => .word w
      | none => .unreadable
    else .skipped

/-- Read a program file into the words given to LOAD, in file order (R54); none where a line is unreadable. -/
def parseFile : List (List Char) → Option (List Nat)
  | [] => some []
  | line :: rest =>
    match parseLine line with
    | .skipped => parseFile rest
    | .word w => (parseFile rest).map (w :: ·)
    | .unreadable => none

/-! ## The console (R68, R94) -/

/-- Each value of OUT as a decimal number on a line of its own, with no sign, padding or prefix (R68). How a line ends is left
open (93_implementation_defined.md I15): one line feed after every value, the last one too (DESIGN CHOICE, unsafe: assumption
log 24). -/
def consoleText (out : List Byte) : List Char := out.flatMap fun v => Nat.toDigits 10 v.toNat ++ ['\n']

/-! ## The end of a run (R65, R90) -/

/-- How the host's process ends: without a load (R90, outside the core), or with the core in state `s`. That a wrong argument
count ends it before LOAD is called is a DESIGN CHOICE (assumption log 25). -/
inductive HostEnd where
  | badArgumentCount
  | programNotFound
  | core (s : State)
  deriving DecidableEq, Repr

/-- The exit status of the core's run: none while it has not ended, 0 after HLT, 1 after a fatal condition or a refused
load (R90, decisions D9 and D16, assumption log 17). -/
def State.exitStatus (s : State) : Option Nat :=
  match s.load with
  | .refused _ => some 1
  | _ =>
    match s.status with
    | .none => none
    | .halted => some 0
    | .fatal _ => some 1

/-- The exit status of the host's process (R90). -/
def HostEnd.exitStatus : HostEnd → Option Nat
  | .badArgumentCount => some 1
  | .programNotFound => some 2
  | .core s => s.exitStatus

/-- The core's state when the host ends. LOAD is never called when the file is missing, so memory is as at reset (R41). After a
wrong argument count the spec gives the exit status alone: the core is as at reset there too (DESIGN CHOICE, unsafe:
assumption log 25). -/
def HostEnd.coreState : HostEnd → State
  | .badArgumentCount => State.reset
  | .programNotFound => State.reset
  | .core s => s

/-- What is observed of a run that has ended (R65). -/
structure Observation where
  status : Status
  out : List Byte
  x : Vector Byte 8
  E : Bool
  pc : Nat
  deriving DecidableEq, Repr

/-- The observation of R65: none while the engine runs. -/
def State.observe (s : State) : Option Observation :=
  if s.running then none else some ⟨s.status, s.out, s.x, s.E, s.pc⟩

end Sys2Proof.Machine
end

