-- ==== Sys2Proof/Machine/Assembler.lean ====
section
/-! DEFINITION. The assembler syntax the spec writes instructions in (spec 30_encoding.md R55, decision D12). It is the
host's notation for bytes, and no step of the core reads it. Where the text is not of the forms of R55, nothing is
assembled (DESIGN CHOICE, safe: assumption log 23). -/

namespace Sys2Proof.Machine

/-! ## Words of a line -/

/-- The pending characters as a word, if there are any. -/
def flushWord (cur : List Char) : List (List Char) := if cur.isEmpty then [] else [cur]

/-- Cut a line into words; a comma and a colon are words of their own. -/
def wordsFrom : List Char → List Char → List (List Char)
  | cur, [] => flushWord cur
  | cur, c :: rest =>
    if isBlankChar c then flushWord cur ++ wordsFrom [] rest
    else if c = ',' ∨ c = ':' then flushWord cur ++ [c] :: wordsFrom [] rest
    else wordsFrom (cur ++ [c]) rest

/-- The words of a line. -/
def lineWords (line : List Char) : List (List Char) := wordsFrom [] line

/-! ## Operands -/

/-- The value of a digit in any base up to 16. -/
def digitValue (c : Char) : Option Nat :=
  let n := c.toNat
  if 48 ≤ n ∧ n ≤ 57 then some (n - 48)
  else if 97 ≤ n ∧ n ≤ 102 then some (n - 87)
  else if 65 ≤ n ∧ n ≤ 70 then some (n - 55)
  else none

/-- Read the digits of a number in a base onto an accumulator. -/
def readDigits (base : Nat) : Nat → List Char → Option Nat
  | acc, [] => some acc
  | acc, c :: rest =>
    match digitValue c with
    | some d => if d < base then readDigits base (base * acc + d) rest else none
    | none => none

/-- A number in decimal, `0x` hexadecimal or `0b` binary (R55). -/
def readNumber : List Char → Option Nat
  | [] => none
  | c :: rest =>
    match c, rest with
    | '0', 'x' :: d :: ds => readDigits 16 0 (d :: ds)
    | '0', 'b' :: d :: ds => readDigits 2 0 (d :: ds)
    | c, ds => readDigits 10 0 (c :: ds)

/-- A register: R0..R7, or SP for R7 (R55, R15). -/
def readRegister : List Char → Option Byte
  | ['R', c] =>
    match digitValue c with
    | some d => if d < 8 then some (BitVec.ofNat 8 d) else none
    | none => none
  | ['S', 'P'] => some 7
  | _ => none

/-- A statement with its registers read. -/
inductive Statement where
  | instr (i : Instr)
  /-- LDI of a label, whose address is not known yet. -/
  | ldiLabel (a : Byte) (label : List Char)
  deriving DecidableEq, Repr

/-- The immediate of LDI: a number in 0..255, or a label (R55). -/
def readImmediate (a : Byte) (x : List Char) : Option Statement :=
  match x with
  | [] => none
  | c :: _ =>
    if (digitValue c).any (· < 10) then
      match readNumber x with
      | some n => if n ≤ 255 then some (.instr (.ldi a (BitVec.ofNat 8 n))) else none
      | none => none
    else some (.ldiLabel a x)

/-- One statement in the forms of R55's table; HALT is accepted for HLT (90_conflicts.md C2). -/
def readStatement : List (List Char) → Option Statement
  | [m] => if m = ['H', 'L', 'T'] ∨ m = ['H', 'A', 'L', 'T'] then some (.instr .hlt) else none
  | [m, ra] =>
    match readRegister ra with
    | none => none
    | some a =>
      if m = ['P', 'R', 'N'] then some (.instr (.prn a))
      else if m = ['J', 'M', 'P'] then some (.instr (.jmp a))
      else if m = ['J', 'E', 'Q'] then some (.instr (.jeq a))
      else if m = ['J', 'N', 'E'] then some (.instr (.jne a))
      else none
  | [m, ra, comma, x] =>
    match readRegister ra with
    | none => none
    | some a =>
      if comma ≠ [','] then none
      else if m = ['L', 'D', 'I'] then readImmediate a x
      else
        match readRegister x with
        | none => none
        | some b =>
          if m = ['C', 'M', 'P'] then some (.instr (.cmp a b))
          else if m = ['A', 'D', 'D'] then some (.instr (.add a b))
          else if m = ['S', 'U', 'B'] then some (.instr (.sub a b))
          else none
  | _ => none

/-! ## Programs with labels -/

/-- What one line holds: an empty line or a label alone has no statement. -/
structure AsmLine where
  label : Option (List Char)
  statement : Option Statement
  deriving DecidableEq, Repr

/-- Read one line: an optional label with a colon, then an optional statement. -/
def readLine (line : List Char) : Option AsmLine :=
  let parts : Option (List Char) × List (List Char) :=
    match lineWords line with
    | name :: [':'] :: rest => (some name, rest)
    | ws => (none, ws)
  match parts.2 with
  | [] => some ⟨parts.1, none⟩
  | ws => (readStatement ws).map fun st => ⟨parts.1, some st⟩

/-- The length of a statement in bytes (R52). -/
def Statement.length : Statement → Nat
  | .instr i => i.mnemonic.length
  | .ldiLabel _ _ => Mnemonic.length .ldi

/-- The address of each label, with the first statement at `addr`. -/
def labelsFrom : Nat → List AsmLine → List (List Char × Nat)
  | _, [] => []
  | addr, l :: rest =>
    let after := labelsFrom (addr + (l.statement.map Statement.length).getD 0) rest
    match l.label with
    | some name => (name, addr) :: after
    | none => after

/-- A statement as an instruction, once the labels are known: a label assembles to its address (R55). -/
def Statement.resolve (labels : List (List Char × Nat)) : Statement → Option Instr
  | .instr i => some i
  | .ldiLabel a name =>
    match labels.find? (fun p => p.1 == name) with
    | some p => if p.2 ≤ 255 then some (.ldi a (BitVec.ofNat 8 p.2)) else none
    | none => none

/-- Read a program in the syntax of R55, loaded at LOAD_BASE, into its instructions. -/
def readAssembly (lines : List (List Char)) : Option (List Instr) :=
  match lines.mapM readLine with
  | none => none
  | some ls => (ls.filterMap AsmLine.statement).mapM (Statement.resolve (labelsFrom Config.loadBase ls))

/-! ## Writing -/

/-- A register operand as text; the byte of a register that does not exist has no name (R55). -/
def registerText (b : Byte) : Option (List Char) :=
  if b.toNat < 8 then some ('R' :: Nat.toDigits 10 b.toNat) else none

/-- An instruction in the syntax of R55, with the immediate in decimal; none where an operand names no register. -/
def instrText : Instr → Option (List Char)
  | .hlt => some ['H', 'L', 'T']
  | .ldi a imm => (registerText a).map fun ra => "LDI ".toList ++ ra ++ ", ".toList ++ Nat.toDigits 10 imm.toNat
  | .prn a => (registerText a).map ("PRN ".toList ++ ·)
  | .cmp a b => (registerText a).bind fun ra => (registerText b).map fun rb => "CMP ".toList ++ ra ++ ", ".toList ++ rb
  | .jmp a => (registerText a).map ("JMP ".toList ++ ·)
  | .jeq a => (registerText a).map ("JEQ ".toList ++ ·)
  | .jne a => (registerText a).map ("JNE ".toList ++ ·)
  | .add a b => (registerText a).bind fun ra => (registerText b).map fun rb => "ADD ".toList ++ ra ++ ", ".toList ++ rb
  | .sub a b => (registerText a).bind fun ra => (registerText b).map fun rb => "SUB ".toList ++ ra ++ ", ".toList ++ rb

end Sys2Proof.Machine
end

