-- ==== Sys2Proof/Safety.lean ====
section
/-! DEFINITION. What the claims are stated in: the invariant of the core, what two states agree on (the parts of a
frame), and the runs of the core. -/

namespace Sys2Proof.Machine

/-! ## The invariant -/

/-- What a recorded condition says of the state it ended in (spec 60_exceptions.md R81, R84, R85, R87, R88). -/
def Condition.agreesWith (c : Condition) (s : State) : Prop :=
  c.pc = s.pc ∧
  match c with
  | .unknownOpcode op pc => Memory.get s.mem pc = op ∧ pc ≤ 253 ∧ s.params.opcodeMap.lookup op = none
  | .memoryFault addr pc => addr = 256 ∧ 254 ≤ pc
  | .outOfRange index pc => 8 ≤ index.toNat ∧ pc ≤ 253
  | .unsupportedALUOperation _ => False
  | .arithRange pc => s.params.arithPolicy = .fault ∧ pc ≤ 253

/-- The invariant of the core. -/
structure State.Inv (s : State) : Prop where
  /-- Memory is in its canonical form and has only the 256 cells of R24. -/
  memory : Memory.wf s.mem = true
  /-- "Every value pc can reach is in 0..256" (R17). -/
  pcRange : s.pc ≤ 256
  /-- RUNNING is exactly: the load was accepted and no step has ended the run (R22, R23, R58). -/
  running : s.running = true ↔ s.load = .loaded ∧ s.status = .none
  /-- A fatal status agrees with the state it left (R81, R88). -/
  status : ∀ c, s.status = .fatal c → c.agreesWith s
  /-- Before a load was accepted, no instruction has executed: all but the load phase is as at reset (R41, R98). -/
  beforeLoad : s.load ≠ .loaded → s = { State.resetWith s.params with load := s.load }
  /-- No record is emitted unless TRACE_ENABLED is true (R96). -/
  trace : s.params.traceEnabled = false → s.trace = []

/-! ## What two states agree on -/

/-- The byte a memory cell holds. -/
def State.byteAt (s : State) (addr : Nat) : Byte := Memory.get s.mem addr

/-- Every byte of memory is the same. -/
def sameMemory (s t : State) : Prop := ∀ addr, t.byteAt addr = s.byteAt addr

/-- Every general register is the same. -/
def sameRegs (s t : State) : Prop := ∀ r, t.reg r = s.reg r

/-- Every general register but `d` is the same. -/
def sameRegsBut (d : RegIx) (s t : State) : Prop := ∀ r, r ≠ d → t.reg r = s.reg r

/-- The engine control state is the same (R22, R23). -/
def sameControl (s t : State) : Prop := t.running = s.running ∧ t.status = s.status

/-- What no handler ever touches is the same: the load phase, the trace channel and the parameters. -/
def sameOuter (s t : State) : Prop := t.load = s.load ∧ t.trace = s.trace ∧ t.params = s.params

/-- The state with the trace channel emptied and the trace switched off: what is left when the trace is not looked at. -/
def State.untraced (s : State) : State :=
  { s with trace := [], params := { s.params with traceEnabled := false } }

/-- The state under another ARITH_POLICY. -/
def State.withPolicy (s : State) (p : ArithPolicy) : State :=
  { s with params := { s.params with arithPolicy := p } }

/-! ## Fetching and running -/

/-- The three bytes at pc are `op`, `a`, `b`, all of them inside memory (R60). -/
def fetches (s : State) (op a b : Byte) : Prop :=
  s.pc ≤ 253 ∧ s.byteAt s.pc = op ∧ s.byteAt (s.pc + 1) = a ∧ s.byteAt (s.pc + 2) = b

/-- `k` steps lead from `s` to `t`. -/
def runsTo (k : Nat) (s t : State) : Prop := Host.Core.run core k s = .next t

/-! ## Renaming registers -/

/-- An operand byte after the registers were renamed by `f`; a byte that names no register stays as it is. -/
def renameByte (f : RegIx → RegIx) (b : Byte) : Byte :=
  match regIndex b with
  | some r => BitVec.ofNat 8 (f r).val
  | none => b

/-- An instruction with its register operands renamed; the immediate of LDI is no register operand (R47). -/
def renameInstr (f : RegIx → RegIx) : Instr → Instr
  | .hlt => .hlt
  | .ldi a imm => .ldi (renameByte f a) imm
  | .prn a => .prn (renameByte f a)
  | .cmp a b => .cmp (renameByte f a) (renameByte f b)
  | .jmp a => .jmp (renameByte f a)
  | .jeq a => .jeq (renameByte f a)
  | .jne a => .jne (renameByte f a)
  | .add a b => .add (renameByte f a) (renameByte f b)
  | .sub a b => .sub (renameByte f a) (renameByte f b)

/-- `t` is `s` with register `r` held as register `f r`, and everything else the same. -/
def renamedState (f : RegIx → RegIx) (s t : State) : Prop :=
  (∀ r, t.reg (f r) = s.reg r) ∧ t = { s with x := t.x }

/-- The run ended normally: "if and only if status = Halted" (R65). -/
def State.endedNormally (s : State) : Prop := s.running = false ∧ s.status = .halted

/-- The run ended with a fatal condition (R65, R81). -/
def State.endedFatally (s : State) : Prop := s.running = false ∧ ∃ c, s.status = .fatal c

end Sys2Proof.Machine
end

