-- ==== Sys2Proof/Certificates/Slice0/Obligations.lean ====
section
/-! DEFINITION. The statements about the machine, from the numbered rules of spec/. Each docstring names the rule it
formalises; where a clause rests on a decision or an inference the spec marks as its own, it says so and names the
log entry. -/

open Sys2Proof Sys2Proof.Machine

/-! ## Encoding -/

/-- A few opcode-table words (30_encoding.md R49), written out: LDI R0, 8; PRN R0; HLT; CMP R0, R1; SUB R2, R3, and two words
that are no instruction. LDI and PRN are the source's bytes; the others are decision D3 (log 2). -/
def Obligations.SampleWordsDecode : Prop :=
  decodeTableWord 24 0x080082 = some (.ldi 0 8) ∧ decodeTableWord 16 0x0047 = some (.prn 0) ∧
  decodeTableWord 8 0x01 = some .hlt ∧ decodeTableWord 24 0x0100A7 = some (.cmp 0 1) ∧
  decodeTableWord 24 0x0302A1 = some (.sub 2 3) ∧ decodeTableWord 8 0x00 = none ∧ decodeTableWord 24 0x0100A2 = none

/-- R50: a byte matches an entry of the opcode map only if all 8 bits are equal, and every byte of the map matches; the
two operand bytes then go to the entry's handler. -/
def Obligations.DispatchMatchesTheWholeByte : Prop :=
  ∀ (m : OpcodeMap) (op a b : Byte),
    ((∃ i, decodeFetched m op a b = .instr i) ↔ ∃ k, m.opcode k = op) ∧
    (decodeFetched m op a b = .unknownOpcode op ↔ ∀ k, m.opcode k ≠ op) ∧
    (∀ i, decodeFetched m op a b = .instr i → m.opcode i.mnemonic = op ∧ i = i.mnemonic.withOperands a b)

/-- R49 and R51: each of the nine bytes of the table decodes to the instruction of its row, with the operand bytes that follow
it, and the other 247 are unknown opcodes, whatever follows them. Rests on decision D3 for seven of the bytes (log 2). -/
def Obligations.AllOtherBytesAreUnknown : Prop :=
  ∀ op a b : Byte,
    decodeFetched defaultOpcodeMap 0x01 a b = .instr .hlt ∧
    decodeFetched defaultOpcodeMap 0x82 a b = .instr (.ldi a b) ∧
    decodeFetched defaultOpcodeMap 0x47 a b = .instr (.prn a) ∧
    decodeFetched defaultOpcodeMap 0xA7 a b = .instr (.cmp a b) ∧
    decodeFetched defaultOpcodeMap 0x54 a b = .instr (.jmp a) ∧
    decodeFetched defaultOpcodeMap 0x55 a b = .instr (.jeq a) ∧
    decodeFetched defaultOpcodeMap 0x56 a b = .instr (.jne a) ∧
    decodeFetched defaultOpcodeMap 0xA0 a b = .instr (.add a b) ∧
    decodeFetched defaultOpcodeMap 0xA1 a b = .instr (.sub a b) ∧
    (decodeFetched defaultOpcodeMap op a b = .unknownOpcode op ↔
      op ∉ ([0x01, 0x82, 0x47, 0xA7, 0x54, 0x55, 0x56, 0xA0, 0xA1] : List Byte))

/-- R42: an instruction is 1, 2 or 3 bytes, the opcode byte and then its 0, 1 or 2 operand bytes; its length is 1 + the
operand count of its opcode. -/
def Obligations.InstructionLength : Prop :=
  ∀ (m : OpcodeMap) (i : Instr),
    encodeWith m i = m.opcode i.mnemonic :: i.operandBytes ∧ i.operandBytes.length = i.mnemonic.operandCount ∧
    (encodeWith m i).length = 1 + i.mnemonic.operandCount ∧ (encodeWith m i).length ∈ [1, 2, 3]

/-- Decode and encode agree: whatever bytes follow, reading one instruction off the encoding of `i` gives `i` and leaves
exactly those bytes, under every map of nine different opcodes and for every value of every operand byte. -/
def Obligations.DecodeOfEncodeIsTheInstruction : Prop :=
  ∀ (m : OpcodeMap), m.wf = true → ∀ (i : Instr) (rest : List Byte),
    decodeBytes m (encodeWith m i ++ rest) = .instr i rest

/-- The other direction: bytes that read as an instruction are its encoding followed by what is left. -/
def Obligations.EncodeOfDecodeIsTheBytes : Prop :=
  ∀ (m : OpcodeMap) (bs rest : List Byte) (i : Instr),
    decodeBytes m bs = .instr i rest → bs = encodeWith m i ++ rest

/-- A sequence of instructions assembled into bytes reads back as the same sequence: no encoding runs into the next. -/
def Obligations.AssembledInstructionsReadBack : Prop :=
  ∀ (m : OpcodeMap), m.wf = true → ∀ (is : List Instr), disassemble m is.length (assemble m is) = some is

/-- R55 and D12: every instruction whose register operands exist can be written in the syntax of R55, and that line reads back
as the same instruction, with every operand (text details: log 23). -/
def Obligations.PrintedAssemblyReadsBack : Prop :=
  ∀ i : Instr, i.wf = true → ∃ text, instrText i = some text ∧ readStatement (lineWords text) = some (.instr i)

/-- R48: the bytes an instruction does not use (a and b of HLT, b of PRN, JMP, JEQ and JNE) have no effect on what is
decoded, and must still lie inside memory: at pc 254 or 255 the fetch raises MemoryFault. -/
def Obligations.UnusedOperandBytesHaveNoEffect : Prop :=
  (∀ (m : OpcodeMap) (op a b a' b' : Byte),
    (m.lookup op = some .hlt → decodeFetched m op a b = decodeFetched m op a' b') ∧
    (m.lookup op = some .prn ∨ m.lookup op = some .jmp ∨ m.lookup op = some .jeq ∨ m.lookup op = some .jne →
      decodeFetched m op a b = decodeFetched m op a b')) ∧
  (∀ s : State, s.running = true → s.pc = 254 ∨ s.pc = 255 →
    step s = .next (raise (.memoryFault 256 s.pc) s))

/-- R44, R49 and R52: AA, B, C and DDDD are bits 7:6, 5, 4 and 3:0 of the opcode byte, and under the map of R49 AA is the
operand count, B marks the ALU's instructions (CMP, ADD, SUB) and C the jumps. The layout and seven of the nine bytes are the
spec's general knowledge (log 2). -/
def Obligations.OpcodeFieldsAgreeWithTheMap : Prop :=
  (∀ op : Byte,
    op.toNat = 64 * opcodeAA op + 32 * (opcodeB op).toNat + 16 * (opcodeC op).toNat + opcodeDDDD op ∧
    opcodeAA op < 4 ∧ opcodeDDDD op < 16) ∧
  ∀ k : Mnemonic,
    k.length = 1 + opcodeAA (defaultOpcodeMap.opcode k) ∧
    (opcodeB (defaultOpcodeMap.opcode k) = true ↔ k = .cmp ∨ k = .add ∨ k = .sub) ∧
    (opcodeC (defaultOpcodeMap.opcode k) = true ↔ k = .jmp ∨ k = .jeq ∨ k = .jne)

/-! ## The step -/

/-- A step runs the decoded instruction: when the three bytes at pc decode to `i`, the step is exec of `i` on the state
after the trace record (R59). -/
def Obligations.StepRunsTheDecodedInstruction : Prop :=
  ∀ (s : State) (op a b : Byte) (i : Instr), s.running = true → fetches s op a b →
    decodeFetched s.params.opcodeMap op a b = .instr i → step s = exec i (emitTrace op a b s)

/-- An instruction whose encoding lies in memory at pc is what the step runs, whatever its length and whatever bytes come
after it. -/
def Obligations.EncodedInstructionInMemoryRuns : Prop :=
  ∀ (s : State) (i : Instr), s.running = true → s.params.opcodeMap.wf = true → s.pc ≤ 253 →
    (∀ (k : Nat) (h : k < (encodeWith s.params.opcodeMap i).length),
      s.byteAt (s.pc + k) = (encodeWith s.params.opcodeMap i)[k]) →
    step s = exec i (emitTrace (s.byteAt s.pc) (s.byteAt (s.pc + 1)) (s.byteAt (s.pc + 2)) s)

/-- R64: in HALTED, STEP is not enabled and the core takes no step, so every part of the state keeps its value; no load
restarts a run. The model's own: step answers Fault.stepNotEnabled there (log 12), and a load of a core that no longer awaits
one answers notAccepted (log 13). -/
def Obligations.HaltedCoreTakesNoStep : Prop :=
  ∀ s : State, s.running = false →
    step s = .fault .stepNotEnabled ∧ (∀ k t, runsTo k s t → t = s) ∧
    (s.load ≠ .awaiting → ∀ ws, loadProgram ws s = .notAccepted)

/-- R58: the engine leaves reset in HALTED and a successful load moves it to RUNNING, at pc 0 (decision D4, log 5). HLT and every
fatal condition move it from RUNNING to HALTED, and nothing else does. No step leads out of HALTED, and no second load does:
that a core which no longer awaits its load answers notAccepted is the model's own (log 13). -/
def Obligations.EngineStateMachine : Prop :=
  (∀ p : Params, (State.resetWith p).running = false) ∧
  (∀ ws s t, loadProgram ws s = .accepted t → s.running = false ∧ t.running = true ∧ t.pc = 0) ∧
  (∀ s t, step s = .next t → s.running = true) ∧
  (∀ ws s, s.load ≠ .awaiting → loadProgram ws s = .notAccepted) ∧
  (∀ s t, step s = .next t → t.running = false →
    (t.status = .halted ∧ s.params.opcodeMap.lookup (s.byteAt s.pc) = some .hlt) ∨ ∃ c, t.status = .fatal c) ∧
  (∀ s op a b, s.running = true → fetches s op a b → s.params.opcodeMap.lookup op = some .hlt →
    ∃ t, step s = .next t ∧ t.running = false ∧ t.status = .halted) ∧
  (∀ s t c, s.status = .none → step s = .next t → t.status = .fatal c → s.running = true ∧ t.running = false)

/-- R83: a byte with no entry in the opcode map raises UnknownOpcode with the byte and the pc; the host exits with status 1.
The raise changes no register, memory cell, E, pc or OUT. -/
def Obligations.UnknownOpcodeHaltsTheEngine : Prop :=
  ∀ (s : State) (op a b : Byte), s.running = true → s.load = .loaded → fetches s op a b →
    s.params.opcodeMap.lookup op = none →
    ∃ t, step s = .next t ∧ t.status = .fatal (.unknownOpcode op s.pc) ∧ t.running = false ∧ t.exitStatus = some 1 ∧
      sameRegs s t ∧ sameMemory s t ∧ t.E = s.E ∧ t.pc = s.pc ∧ t.out = s.out ∧ t.params = s.params

/-- R85: a register operand of 8 or more raises OutOfRange with the operand byte and the pc, for every instruction that has
register operands; an instruction whose operands all name registers never raises it. -/
def Obligations.OutOfRangeOperandIsRaised : Prop :=
  ∀ (i : Instr) (s : State),
    ((∃ r ∈ i.regOperands, 8 ≤ r.toNat) →
      ∃ r ∈ i.regOperands, 8 ≤ r.toNat ∧ exec i s = .next (raise (.outOfRange r s.pc) s)) ∧
    (i.wf = true → ∀ t r p, exec i s = .next t → t.status = .fatal (.outOfRange r p) → s.status = .fatal (.outOfRange r p))

/-- R60 and R89: one step reports the first of MemoryFault (lowest address), UnknownOpcode, OutOfRange for a, OutOfRange
for b, ArithRange. The order is decision D10 and the fetch bound is decision D8 (log 9, log 11). -/
def Obligations.FatalConditionPriority : Prop :=
  ∀ s : State, s.running = true →
    (253 < s.pc → step s = .next (raise (.memoryFault (max 256 s.pc) s.pc) s)) ∧
    (∀ op a b, fetches s op a b →
      (s.params.opcodeMap.lookup op = none →
        step s = .next (raise (.unknownOpcode op s.pc) (emitTrace op a b s))) ∧
      (∀ k, s.params.opcodeMap.lookup op = some k → k ≠ .hlt → 8 ≤ a.toNat →
        step s = .next (raise (.outOfRange a s.pc) (emitTrace op a b s))) ∧
      (∀ k, s.params.opcodeMap.lookup op = some k → k = .cmp ∨ k = .add ∨ k = .sub → a.toNat < 8 → 8 ≤ b.toNat →
        step s = .next (raise (.outOfRange b s.pc) (emitTrace op a b s))) ∧
      (∀ (ha : a.toNat < 8) (hb : b.toNat < 8), s.params.opcodeMap.lookup op = some .add →
        s.params.arithPolicy = .fault → 255 < (s.reg ⟨a.toNat, ha⟩).toNat + (s.reg ⟨b.toNat, hb⟩).toNat →
        step s = .next (raise (.arithRange s.pc) (emitTrace op a b s))) ∧
      (∀ (ha : a.toNat < 8) (hb : b.toNat < 8), s.params.opcodeMap.lookup op = some .sub →
        s.params.arithPolicy = .fault → (s.reg ⟨a.toNat, ha⟩).toNat < (s.reg ⟨b.toNat, hb⟩).toNat →
        step s = .next (raise (.arithRange s.pc) (emitTrace op a b s))))

/-- R82 and R88: a step that ends in a fatal condition has no effect but status and running: no register, E, memory cell, OUT
entry, pc, load phase or parameter changes, and the condition records the pc of the instruction. Decision D11 (log 10). -/
def Obligations.FatalConditionIsPrecise : Prop :=
  ∀ (s t : State) (c : Condition), s.status = .none → step s = .next t → t.status = .fatal c →
    c.pc = s.pc ∧ t.running = false ∧ sameRegs s t ∧ t.E = s.E ∧ t.pc = s.pc ∧ sameMemory s t ∧ t.out = s.out ∧
    t.load = s.load ∧ t.params = s.params

/-- R81, R87: a fatal condition that a step raises has its own cause, and UnsupportedALUOperation has none (R78). ArithRange has a
sum above 255 or a difference below 0 of the two registers named. The checks are decisions D1, D8 and D18 (log 3, log 9,
log 19). -/
def Obligations.FatalConditionHasItsCause : Prop :=
  ∀ (s t : State) (c : Condition), s.status = .none → step s = .next t → t.status = .fatal c →
    match c with
    | .unknownOpcode op _ => op = s.byteAt s.pc ∧ s.pc ≤ 253 ∧ s.params.opcodeMap.lookup op = none
    | .memoryFault addr _ => 253 < s.pc ∧ addr = max 256 s.pc
    | .outOfRange r _ => 8 ≤ r.toNat ∧ s.pc ≤ 253 ∧ ∃ k, s.params.opcodeMap.lookup (s.byteAt s.pc) = some k ∧
        r ∈ (k.withOperands (s.byteAt (s.pc + 1)) (s.byteAt (s.pc + 2))).regOperands
    | .unsupportedALUOperation _ => False
    | .arithRange _ => s.params.arithPolicy = .fault ∧ s.pc ≤ 253 ∧
        ∃ (ha : (s.byteAt (s.pc + 1)).toNat < 8) (hb : (s.byteAt (s.pc + 2)).toNat < 8),
          (s.params.opcodeMap.lookup (s.byteAt s.pc) = some .add ∧ 255 < (s.reg ⟨_, ha⟩).toNat + (s.reg ⟨_, hb⟩).toNat) ∨
          (s.params.opcodeMap.lookup (s.byteAt s.pc) = some .sub ∧ (s.reg ⟨_, ha⟩).toNat < (s.reg ⟨_, hb⟩).toNat)

/-- R96: with TRACE enabled every fetch that succeeds emits one record of the pc, the three bytes and the registers before
the instruction, also where the step then raises; a fetch that raises MemoryFault emits none, and with TRACE disabled there
is none. Decision D19 (log 15). -/
def Obligations.OneTraceRecordPerFetch : Prop :=
  ∀ s : State, s.running = true →
    (s.params.traceEnabled = true → ∀ op a b, fetches s op a b →
      ∃ t, step s = .next t ∧ t.trace = s.trace ++ [⟨s.pc, op, a, b, s.x⟩]) ∧
    (s.params.traceEnabled = true → 253 < s.pc → ∃ t, step s = .next t ∧ t.trace = s.trace) ∧
    (s.params.traceEnabled = false → ∃ t, step s = .next t ∧ t.trace = s.trace)

/-! ## Instructions -/

/-- Every handler completes in a next state, for every operand value and in every state, and none of them writes memory, the
load phase, the trace channel or the parameters (R31, R59, R96). -/
def Obligations.EveryInstructionCompletes : Prop :=
  ∀ (i : Instr) (s : State), ∃ t, exec i s = .next t ∧ sameMemory s t ∧ sameOuter s t

/-- R67, LDI. With a register operand: x[a] = imm, pc + 3, and nothing else changes. With an operand of 8 or more:
OutOfRange(a, pc). Its bytes are 0x82, a, imm, which a step at 253 or below runs; above 253 the fetch raises MemoryFault. -/
def Obligations.LoadImmediateRule : Prop :=
  ∀ (s : State) (a imm : Byte),
    (∀ h : a.toNat < 8, ∃ t, exec (.ldi a imm) s = .next t ∧ t.reg ⟨a.toNat, h⟩ = imm ∧
      sameRegsBut ⟨a.toNat, h⟩ s t ∧ t.pc = s.pc + 3 ∧ t.E = s.E ∧ t.out = s.out ∧ sameMemory s t ∧ sameControl s t ∧
      sameOuter s t) ∧
    (8 ≤ a.toNat → exec (.ldi a imm) s = .next (raise (.outOfRange a s.pc) s)) ∧
    encode (.ldi a imm) = [0x82, a, imm] ∧ (encode (.ldi a imm)).length = 3 ∧
    (s.running = true → s.params.opcodeMap = defaultOpcodeMap → fetches s 0x82 a imm →
      step s = exec (.ldi a imm) (emitTrace 0x82 a imm s)) ∧
    (s.running = true → 253 < s.pc → step s = .next (raise (.memoryFault (max 256 s.pc) s.pc) s))

/-- R68, PRN: the value of x[a] is appended to OUT and pc advances by 2; nothing else changes. The channel always takes the
value (decision D17, log 16). An operand of 8 or more raises OutOfRange before the emit. -/
def Obligations.PrintRegisterEffect : Prop :=
  ∀ (s : State) (a : Byte),
    (∀ h : a.toNat < 8, ∃ t, exec (.prn a) s = .next t ∧ t.out = s.out ++ [s.reg ⟨a.toNat, h⟩] ∧ t.pc = s.pc + 2 ∧
      sameRegs s t ∧ t.E = s.E ∧ sameMemory s t ∧ sameControl s t ∧ sameOuter s t) ∧
    (8 ≤ a.toNat → exec (.prn a) s = .next (raise (.outOfRange a s.pc) s))

/-- R69, CMP: E is 1 exactly when x[a] = x[b], and 0 otherwise, also when a = b; pc advances by 3; nothing else changes.
OutOfRange is raised for a first, then for b (decision D10, log 11). -/
def Obligations.CompareEffect : Prop :=
  ∀ (s : State) (a b : Byte),
    (∀ (ha : a.toNat < 8) (hb : b.toNat < 8), ∃ t, exec (.cmp a b) s = .next t ∧
      (t.E = true ↔ s.reg ⟨a.toNat, ha⟩ = s.reg ⟨b.toNat, hb⟩) ∧ (a = b → t.E = true) ∧ t.pc = s.pc + 3 ∧
      sameRegs s t ∧ t.out = s.out ∧ sameMemory s t ∧ sameControl s t ∧ sameOuter s t) ∧
    (8 ≤ a.toNat → exec (.cmp a b) s = .next (raise (.outOfRange a s.pc) s)) ∧
    (a.toNat < 8 → 8 ≤ b.toNat → exec (.cmp a b) s = .next (raise (.outOfRange b s.pc) s))

/-- R70, JMP: pc becomes the value of x[a], at most 255; nothing else changes. -/
def Obligations.JumpEffect : Prop :=
  ∀ (s : State) (a : Byte),
    (∀ h : a.toNat < 8, ∃ t, exec (.jmp a) s = .next t ∧ t.pc = (s.reg ⟨a.toNat, h⟩).toNat ∧ t.pc ≤ 255 ∧
      sameRegs s t ∧ t.E = s.E ∧ t.out = s.out ∧ sameMemory s t ∧ sameControl s t ∧ sameOuter s t) ∧
    (8 ≤ a.toNat → exec (.jmp a) s = .next (raise (.outOfRange a s.pc) s))

/-- R71, JEQ: with E = 1 pc becomes x[a], with E = 0 pc advances by 2; nothing else changes. An operand of 8 or more raises
OutOfRange whether or not the branch is taken (decision D8, log 9). -/
def Obligations.JumpIfEqualEffect : Prop :=
  ∀ (s : State) (a : Byte),
    (∀ h : a.toNat < 8, ∃ t, exec (.jeq a) s = .next t ∧
      (s.E = true → t.pc = (s.reg ⟨a.toNat, h⟩).toNat) ∧ (s.E = false → t.pc = s.pc + 2) ∧
      sameRegs s t ∧ t.E = s.E ∧ t.out = s.out ∧ sameMemory s t ∧ sameControl s t ∧ sameOuter s t) ∧
    (8 ≤ a.toNat → exec (.jeq a) s = .next (raise (.outOfRange a s.pc) s))

/-- R72, JNE: with E = 0 pc becomes x[a], with E = 1 pc advances by 2; nothing else changes. The spec infers JNE by symmetry
with JEQ ("INFERRED", decision D6, log 7); the operand check on an untaken branch is decision D8 (log 9). -/
def Obligations.JumpIfNotEqualEffect : Prop :=
  ∀ (s : State) (a : Byte),
    (∀ h : a.toNat < 8, ∃ t, exec (.jne a) s = .next t ∧
      (s.E = false → t.pc = (s.reg ⟨a.toNat, h⟩).toNat) ∧ (s.E = true → t.pc = s.pc + 2) ∧
      sameRegs s t ∧ t.E = s.E ∧ t.out = s.out ∧ sameMemory s t ∧ sameControl s t ∧ sameOuter s t) ∧
    (8 ≤ a.toNat → exec (.jne a) s = .next (raise (.outOfRange a s.pc) s))

/-- R73, HLT: running is cleared and status is Halted; registers, E, memory and OUT are unchanged. pc advances by 1: the
spec derives that from its general rule and asks that no claim rest on it (93_implementation_defined.md I6, log 8). -/
def Obligations.HaltEffect : Prop :=
  ∀ s : State, ∃ t, exec .hlt s = .next t ∧ t.running = false ∧ t.status = .halted ∧ t.pc = s.pc + 1 ∧
    sameRegs s t ∧ t.E = s.E ∧ t.out = s.out ∧ sameMemory s t ∧ sameOuter s t

/-- R76, ADD under ARITH_POLICY = wrap: x[a] = (x[a] + x[b]) mod 256, both read before the write, pc + 3; no flag and nothing
else changes. The width and the wrap are decision D1 (log 3), pc + 3 is decision D22 (log 18). -/
def Obligations.AddEffect : Prop :=
  ∀ (s : State) (a b : Byte),
    (∀ (ha : a.toNat < 8) (hb : b.toNat < 8), s.params.arithPolicy = .wrap → ∃ t, exec (.add a b) s = .next t ∧
      (t.reg ⟨a.toNat, ha⟩).toNat = ((s.reg ⟨a.toNat, ha⟩).toNat + (s.reg ⟨b.toNat, hb⟩).toNat) % 256 ∧
      sameRegsBut ⟨a.toNat, ha⟩ s t ∧ t.pc = s.pc + 3 ∧ t.E = s.E ∧ t.out = s.out ∧ sameMemory s t ∧ sameControl s t ∧
      sameOuter s t) ∧
    (8 ≤ a.toNat → exec (.add a b) s = .next (raise (.outOfRange a s.pc) s)) ∧
    (a.toNat < 8 → 8 ≤ b.toNat → exec (.add a b) s = .next (raise (.outOfRange b s.pc) s))

/-- R77, SUB under ARITH_POLICY = wrap: x[a] = (x[a] - x[b]) mod 256, a the minuend, both read before the write, pc + 3; no flag
and nothing else changes. The width and the wrap are decision D1 (log 3), pc + 3 is decision D22 (log 18). -/
def Obligations.SubtractEffect : Prop :=
  ∀ (s : State) (a b : Byte),
    (∀ (ha : a.toNat < 8) (hb : b.toNat < 8), s.params.arithPolicy = .wrap → ∃ t, exec (.sub a b) s = .next t ∧
      ((t.reg ⟨a.toNat, ha⟩).toNat : Int) =
        (((s.reg ⟨a.toNat, ha⟩).toNat : Int) - ((s.reg ⟨b.toNat, hb⟩).toNat : Int)) % 256 ∧
      sameRegsBut ⟨a.toNat, ha⟩ s t ∧ t.pc = s.pc + 3 ∧ t.E = s.E ∧ t.out = s.out ∧ sameMemory s t ∧ sameControl s t ∧
      sameOuter s t) ∧
    (8 ≤ a.toNat → exec (.sub a b) s = .next (raise (.outOfRange a s.pc) s)) ∧
    (a.toNat < 8 → 8 ≤ b.toNat → exec (.sub a b) s = .next (raise (.outOfRange b s.pc) s))

/-- R75 and R87, ADD and SUB under ARITH_POLICY = fault: a result in 0..255 is written exactly, with everything else as under
wrap; a result outside raises ArithRange(pc) and writes nothing. Decision D1 (log 3). -/
def Obligations.ArithmeticUnderTheFaultPolicy : Prop :=
  ∀ (s : State) (a b : Byte) (ha : a.toNat < 8) (hb : b.toNat < 8), s.params.arithPolicy = .fault →
    ((s.reg ⟨a.toNat, ha⟩).toNat + (s.reg ⟨b.toNat, hb⟩).toNat ≤ 255 → ∃ t, exec (.add a b) s = .next t ∧
      (t.reg ⟨a.toNat, ha⟩).toNat = (s.reg ⟨a.toNat, ha⟩).toNat + (s.reg ⟨b.toNat, hb⟩).toNat ∧
      sameRegsBut ⟨a.toNat, ha⟩ s t ∧ t.pc = s.pc + 3 ∧ t.E = s.E ∧ t.out = s.out ∧ sameMemory s t ∧ sameControl s t ∧
      sameOuter s t) ∧
    (255 < (s.reg ⟨a.toNat, ha⟩).toNat + (s.reg ⟨b.toNat, hb⟩).toNat →
      exec (.add a b) s = .next (raise (.arithRange s.pc) s)) ∧
    ((s.reg ⟨b.toNat, hb⟩).toNat ≤ (s.reg ⟨a.toNat, ha⟩).toNat → ∃ t, exec (.sub a b) s = .next t ∧
      (t.reg ⟨a.toNat, ha⟩).toNat + (s.reg ⟨b.toNat, hb⟩).toNat = (s.reg ⟨a.toNat, ha⟩).toNat ∧
      sameRegsBut ⟨a.toNat, ha⟩ s t ∧ t.pc = s.pc + 3 ∧ t.E = s.E ∧ t.out = s.out ∧ sameMemory s t ∧ sameControl s t ∧
      sameOuter s t) ∧
    ((s.reg ⟨a.toNat, ha⟩).toNat < (s.reg ⟨b.toNat, hb⟩).toNat →
      exec (.sub a b) s = .next (raise (.arithRange s.pc) s))

/-- R79: ADD and SUB are the same operations on two's-complement signed values: the signed reading of the result is the
signed sum or difference, reduced into -128..127. Rests on decision D1 (log 3). -/
def Obligations.ArithmeticIsTheSameUnderASignedReading : Prop :=
  ∀ u v : Byte,
    (∃ w, alu .wrap .add u v = some w ∧ w.toInt = (u.toInt + v.toInt).bmod 256) ∧
    (∃ w, alu .wrap .sub u v = some w ∧ w.toInt = (u.toInt - v.toInt).bmod 256)

/-- R56: ADD of a register that holds 0 changes only pc, under either ARITH_POLICY. -/
def Obligations.AddingZeroChangesOnlyThePc : Prop :=
  ∀ (s : State) (a b : Byte) (_ : a.toNat < 8) (hb : b.toNat < 8), s.reg ⟨b.toNat, hb⟩ = 0 →
    exec (.add a b) s = .next (s.advance 3)

/-- R18: pc advances by the length of the instruction's own encoding unless the instruction transfers control or raises, with no
wrap (decision D2, log 4). The rows of HLT, JNE, ADD and SUB are the spec's reading: HLT log 8, the fall-through of JNE decision
D6 (log 7), ADD and SUB decision D22 (log 18). Under ARITH_POLICY = fault ADD and SUB advance on a result in 0..255 (decision
D1, log 3). -/
def Obligations.PcAdvancesByTheLength : Prop :=
  ∀ (m : OpcodeMap) (i : Instr) (s : State), i.wf = true →
    (s.params.arithPolicy = .fault → ∀ (a b : Byte) (ha : a.toNat < 8) (hb : b.toNat < 8),
      (i = .add a b → (s.reg ⟨a.toNat, ha⟩).toNat + (s.reg ⟨b.toNat, hb⟩).toNat ≤ 255) ∧
      (i = .sub a b → (s.reg ⟨b.toNat, hb⟩).toNat ≤ (s.reg ⟨a.toNat, ha⟩).toNat)) →
    (∀ a, i ≠ .jmp a) → (∀ a, i = .jeq a → s.E = false) → (∀ a, i = .jne a → s.E = true) →
    ∃ t, exec i s = .next t ∧ t.pc = s.pc + (encodeWith m i).length

/-- R14: a general register changes only by LDI, ADD or SUB whose operand a names it. -/
def Obligations.OnlyTheDestinationRegisterChanges : Prop :=
  ∀ (i : Instr) (s t : State) (r : RegIx), exec i s = .next t → t.reg r ≠ s.reg r →
    ∃ a b : Byte, a.toNat = r.val ∧ (i = .ldi a b ∨ i = .add a b ∨ i = .sub a b)

/-- R21: a step changes E only by CMP, and only JEQ and JNE depend on E: every other handler, CMP apart, does the same with E
either way and leaves it, and CMP's result does not depend on the old E. -/
def Obligations.OnlyCompareWritesTheEqualFlag : Prop :=
  (∀ s t : State, step s = .next t → t.E ≠ s.E → s.params.opcodeMap.lookup (s.byteAt s.pc) = some .cmp) ∧
  (∀ (i : Instr) (s t : State) (v : Bool), (∀ a, i ≠ .jeq a) → (∀ a, i ≠ .jne a) → exec i s = .next t →
    (∀ a b, i ≠ .cmp a b) → exec i (s.setE v) = .next (t.setE v)) ∧
  (∀ (a b : Byte) (s : State) (v : Bool), a.toNat < 8 → b.toNat < 8 → exec (.cmp a b) (s.setE v) = exec (.cmp a b) s)

/-- R13 and R15: no register is special, R7 included. Renaming the registers by any permutation, in the instruction and in
the state alike, renames the result and changes nothing else; an operand that names no register is reported as it is. -/
def Obligations.RegistersAreInterchangeable : Prop :=
  ∀ (f : RegIx → RegIx), Function.Bijective f → ∀ (i : Instr) (s s' : State), renamedState f s s' →
    ∃ t t', exec i s = .next t ∧ exec (renameInstr f i) s' = .next t' ∧ renamedState f t t'

/-! ## Memory, output and load -/

/-- R31: MemWrite sets one cell of memory and leaves every other cell alone, as MemRead sees it, and keeps memory's canonical
form. -/
def Obligations.MemReadAfterMemWrite : Prop :=
  ∀ (s : State) (addr q : Nat) (v : Byte), Memory.wf s.mem = true → addr ≤ 255 → q ≤ 255 →
    memRead q (memWrite addr v s) = (if q = addr then .value v else memRead q s) ∧
    Memory.wf (memWrite addr v s).mem = true

/-- Memory's canonical form is canonical: two memories that hold the same bytes are the same data. -/
def Obligations.EqualMemoriesAreEqualData : Prop :=
  ∀ m n : Memory, Memory.wf m = true → Memory.wf n = true → (∀ addr, addr ≤ 255 → Memory.get m addr = Memory.get n addr) →
    m = n

/-- R104: no instruction writes memory, so over any number of steps every byte of memory stays as it is. -/
def Obligations.MemoryIsConstantAlongARun : Prop :=
  ∀ (k : Nat) (s t : State), runsTo k s t → sameMemory s t

/-- R26: OUT is empty at reset (decision D17, log 16). A step that runs PRN on a register appends that register's value; a step
that changes OUT has PRN's byte at pc and appends one value; a step that raises a fatal condition leaves OUT as it was (decision
D11, log 10). Nothing removes a value over any number of steps, and the host renders each value in decimal on its own line. That
the line ends in one line feed is the model's choice (log 24). -/
def Obligations.OutputOnlyGrows : Prop :=
  State.reset.out = [] ∧
  (∀ (out : List Byte) (v : Byte),
    consoleText (out ++ [v]) = consoleText out ++ Nat.toDigits 10 v.toNat ++ ['\n']) ∧
  (∀ (s t : State), step s = .next t → t.out ≠ s.out →
    s.params.opcodeMap.lookup (s.byteAt s.pc) = some .prn ∧ ∃ v, t.out = s.out ++ [v]) ∧
  (∀ (s : State) (op a b : Byte) (h : a.toNat < 8), s.running = true → fetches s op a b →
    s.params.opcodeMap.lookup op = some .prn → ∃ t, step s = .next t ∧ t.out = s.out ++ [s.reg ⟨a.toNat, h⟩]) ∧
  (∀ (s t : State) (c : Condition), s.status = .none → step s = .next t → t.status = .fatal c → t.out = s.out) ∧
  (∀ (k : Nat) (s t : State), runsTo k s t → s.out <+: t.out)

/-- A load that fits puts word i at address i, leaves every other cell alone, and starts the engine: pc 0 and RUNNING (R40).
Nothing else changes. pc 0 is decision D4 (log 5) and the limits are decision D16 (log 13). That E becomes RESET_E is the
model's own choice (log 6, from D5 and I7): R40 writes E <- 0, which is the same under the default RESET_E = 0. -/
def Obligations.LoadPlacesTheImage : Prop :=
  ∀ (ws : List Nat) (s : State), s.load = .awaiting → s.running = false → Memory.wf s.mem = true → ws.length ≤ 256 →
    (∀ w ∈ ws, w ≤ 255) →
    ∃ t, loadProgram ws s = .accepted t ∧
      (∀ (i : Nat) (h : i < ws.length), (t.byteAt i).toNat = ws[i]) ∧
      (∀ i, ws.length ≤ i → t.byteAt i = s.byteAt i) ∧
      t.pc = 0 ∧ t.E = s.params.resetE ∧ t.running = true ∧ t.load = .loaded ∧ t.status = s.status ∧ sameRegs s t ∧
      t.out = s.out ∧ t.trace = s.trace ∧ t.params = s.params ∧ Memory.wf t.mem = true

/-- R40: a load of more than 256 words, or else with a word above 255, is refused: memory and everything else but the load
phase is unchanged, the host exits with status 1, and no later load or step changes the core. Decision D16 (log 13). -/
def Obligations.RefusedLoadNeverRuns : Prop :=
  ∀ (ws : List Nat) (s : State), s.load = .awaiting → s.running = false →
    (256 < ws.length → loadProgram ws s = .refused .loadTooLong { s with load := .refused .loadTooLong }) ∧
    (ws.length ≤ 256 → (∃ w ∈ ws, 255 < w) →
      loadProgram ws s = .refused .loadBadWord { s with load := .refused .loadBadWord }) ∧
    (∀ r t, loadProgram ws s = .refused r t →
      t.exitStatus = some 1 ∧ (∀ ws', loadProgram ws' t = .notAccepted) ∧ ∀ k u, runsTo k t u → u = t)

/-- R41: the core accepts the load once, after reset and before execution; none during a run or after one. A load of at most 256
words of at most 255 is accepted by every core that awaits its load, as reset leaves it. The load phase, also the refused one,
and the answer notAccepted are the model's own (log 13), and the limits are decision D16. Where the program file is missing
the exit status is 2 and memory is not changed. -/
def Obligations.LoadIsAcceptedOnce : Prop :=
  (∀ p : Params, (State.resetWith p).load = .awaiting ∧ (State.resetWith p).running = false) ∧
  (∀ (ws : List Nat) (s : State), s.load = .awaiting → s.running = false → ws.length ≤ 256 → (∀ w ∈ ws, w ≤ 255) →
    ∃ t, loadProgram ws s = .accepted t ∧ t.running = true ∧ t.load = .loaded) ∧
  (∀ (ws : List Nat) (s : State), s.load ≠ .awaiting ∨ s.running = true → loadProgram ws s = .notAccepted) ∧
  (∀ (ws : List Nat) (s t : State), loadProgram ws s = .accepted t →
    ∀ k u, runsTo k t u → ∀ ws', loadProgram ws' u = .notAccepted) ∧
  HostEnd.programNotFound.exitStatus = some 2 ∧ ∀ addr, HostEnd.programNotFound.coreState.byteAt addr = 0

/-- R37: after a load from reset, at any point of the run, MemRead at an address gives the word that was loaded there, or 0
past the image. -/
def Obligations.MemoryHoldsTheLoadedImage : Prop :=
  ∀ (p : Params) (ws : List Nat) (t u : State) (k addr : Nat), loadProgram ws (State.resetWith p) = .accepted t →
    runsTo k t u → addr ≤ 255 → ∃ v, memRead addr u = .value v ∧ v.toNat = ws.getD addr 0

/-- R54, and the examples S5 and S6: comments, and lines that do not begin with 0 or 1, do not change the words that are read
from a program file. -/
def Obligations.CommentsDoNotChangeTheProgram : Prop :=
  (∀ lines : List (List Char), parseFile (lines.map stripComment) = parseFile lines) ∧
  (∀ (before after : List (List Char)) (line : List Char),
    (∀ c, line.head? = some c → c ≠ '0' ∧ c ≠ '1') →
    parseFile (before ++ line :: after) = parseFile (before ++ after))

/-! ## Runs -/

/-- R28 and R98: reset leaves every register and every memory cell 0, pc 0, E at RESET_E, the engine HALTED with status None,
OUT empty; under the parameter values of R8, E is 0, ARITH_POLICY is wrap and TRACE is disabled. pc, E, status and OUT are
decisions D4, D5, D9 and D17 (log 5, log 6, log 10, log 16). The model's own: the load phase is awaiting (log 13) and the trace
channel is empty (log 15). -/
def Obligations.ResetState : Prop :=
  (∀ p : Params, (∀ r, (State.resetWith p).reg r = 0) ∧ (∀ addr, (State.resetWith p).byteAt addr = 0) ∧
    (State.resetWith p).pc = 0 ∧ (State.resetWith p).E = p.resetE ∧ (State.resetWith p).running = false ∧
    (State.resetWith p).status = .none ∧ (State.resetWith p).out = [] ∧ (State.resetWith p).load = .awaiting ∧
    (State.resetWith p).trace = []) ∧
  State.reset.E = false ∧ State.reset.params.arithPolicy = .wrap ∧ State.reset.params.traceEnabled = false

/-- The invariant holds at reset, under every value of the parameters. -/
def Obligations.ResetMeetsTheInvariant : Prop :=
  ∀ p : Params, (State.resetWith p).Inv

/-- Every load answers a core that meets the invariant. -/
def Obligations.LoadKeepsTheInvariant : Prop :=
  ∀ (ws : List Nat) (s : State), s.Inv → ((loadProgram ws s).stateFrom s).Inv

/-- Every step keeps the invariant: memory stays canonical, pc stays in 0..256, RUNNING is exactly loaded with no status,
a fatal status agrees with the state it left, and no trace is kept with TRACE off. -/
def Obligations.StepKeepsTheInvariant : Prop :=
  ∀ s t : State, s.Inv → step s = .next t → t.Inv

/-- R65 and R90: a run that has ended is normal exactly when status is Halted, with exit status 0, and otherwise a fatal end,
with exit status 1 (decision D9, log 17); a run that has not ended has no exit status and no observation. -/
def Obligations.EndOfARun : Prop :=
  ∀ s : State, s.Inv → s.load = .loaded →
    (s.running = false → (s.endedNormally ∧ s.exitStatus = some 0 ∧ ¬ s.endedFatally) ∨
      (s.endedFatally ∧ s.exitStatus = some 1 ∧ ¬ s.endedNormally)) ∧
    (s.running = false → s.observe = some ⟨s.status, s.out, s.x, s.E, s.pc⟩) ∧
    (s.running = true → s.exitStatus = none ∧ s.observe = none)

/-- R66 and R70: a JMP whose target is its own address runs forever: after any number of steps the engine is still RUNNING at
the same pc, with the same registers and OUT. -/
def Obligations.SelfJumpRunsForever : Prop :=
  ∀ (s : State) (a b : Byte) (h : a.toNat < 8), s.running = true → fetches s s.params.opcodeMap.jmp a b →
    s.params.opcodeMap.wf = true → (s.reg ⟨a.toNat, h⟩).toNat = s.pc →
    ∀ k, ∃ t, runsTo k s t ∧ t.running = true ∧ t.pc = s.pc ∧ sameRegs s t ∧ t.out = s.out

/-- R96: the trace changes no state. Two cores that agree in all but the trace channel and TRACE_ENABLED agree in all but
those after any number of steps. -/
def Obligations.TraceDoesNotAffectTheRun : Prop :=
  ∀ (k : Nat) (s u t : State), s.untraced = u.untraced → runsTo k s t →
    ∃ v, runsTo k u v ∧ v.untraced = t.untraced

/-- The two arithmetic policies agree on every run in which ArithRange is not raised: such a run under `fault` is, step for
step, the run under `wrap` (92_eei_decisions.md D1, log 3). -/
def Obligations.FaultPolicyRunIsAWrapPolicyRun : Prop :=
  ∀ (k : Nat) (s t : State), s.params.arithPolicy = .fault → runsTo k s t →
    (∀ p, t.status ≠ .fatal (.arithRange p)) → runsTo k (s.withPolicy .wrap) (t.withPolicy .wrap)
end

