-- ==== Sys2Proof/Laws/Decode.lean ====
section
/-! SUPPORT. What the dispatcher's lookup answers (spec 30_encoding.md R50). -/

namespace Sys2Proof

/-- The lookup answers only entries whose byte is the opcode, all 8 bits. -/
theorem OpcodeMap.opcode_of_lookup {m : OpcodeMap} {op : Byte} {k : Mnemonic} (h : m.lookup op = some k) :
    m.opcode k = op := by
  simpa using List.find?_some h

theorem Mnemonic.mem_all (k : Mnemonic) : k ∈ Mnemonic.all := by
  cases k <;> decide

/-- A map with nine different bytes finds every entry by its byte. -/
theorem OpcodeMap.lookup_opcode {m : OpcodeMap} (hm : m.wf = true) (k : Mnemonic) :
    m.lookup (m.opcode k) = some k := by
  have hn : (Mnemonic.all.map m.opcode).Nodup := of_decide_eq_true hm
  have hinj := List.inj_on_of_nodup_map hn
  cases hl : m.lookup (m.opcode k) with
  | none => simpa using List.find?_eq_none.1 hl k k.mem_all
  | some j => rw [hinj j.mem_all k.mem_all (OpcodeMap.opcode_of_lookup hl)]

/-- The lookup fails exactly on the bytes of no entry. -/
theorem OpcodeMap.lookup_eq_none {m : OpcodeMap} {op : Byte} : m.lookup op = none ↔ ∀ k, m.opcode k ≠ op := by
  constructor
  · intro h k
    simpa using List.find?_eq_none.1 h k k.mem_all
  · intro h
    exact List.find?_eq_none.2 fun k _ => by simpa using h k

theorem Instr.mnemonic_withOperands (k : Mnemonic) (a b : Byte) : (k.withOperands a b).mnemonic = k := by
  cases k <;> rfl

/-- The map of R49 gives nine different bytes. -/
theorem defaultOpcodeMap_wf : defaultOpcodeMap.wf = true := by decide

end Sys2Proof
end

