-- ==== Sys2Proof/Laws/State.lean ====
section
/-! SUPPORT. One lemma for each field of State under each update, and for the register and cell reads, so that no later
proof unfolds a record update. -/

namespace Sys2Proof.Machine

/-! ## raise -/

@[simp] theorem raise_x (c : Condition) (s : State) : (raise c s).x = s.x := rfl
@[simp] theorem raise_pc (c : Condition) (s : State) : (raise c s).pc = s.pc := rfl
@[simp] theorem raise_E (c : Condition) (s : State) : (raise c s).E = s.E := rfl
@[simp] theorem raise_running (c : Condition) (s : State) : (raise c s).running = false := rfl
@[simp] theorem raise_status (c : Condition) (s : State) : (raise c s).status = .fatal c := rfl
@[simp] theorem raise_mem (c : Condition) (s : State) : (raise c s).mem = s.mem := rfl
@[simp] theorem raise_out (c : Condition) (s : State) : (raise c s).out = s.out := rfl
@[simp] theorem raise_load (c : Condition) (s : State) : (raise c s).load = s.load := rfl
@[simp] theorem raise_trace (c : Condition) (s : State) : (raise c s).trace = s.trace := rfl
@[simp] theorem raise_params (c : Condition) (s : State) : (raise c s).params = s.params := rfl
@[simp] theorem raise_reg (c : Condition) (s : State) (q : RegIx) : (raise c s).reg q = s.reg q := rfl
@[simp] theorem raise_byteAt (c : Condition) (s : State) (addr : Nat) : (raise c s).byteAt addr = s.byteAt addr := rfl

/-! ## halt -/

@[simp] theorem halt_x (s : State) : (halt s).x = s.x := rfl
@[simp] theorem halt_pc (s : State) : (halt s).pc = s.pc := rfl
@[simp] theorem halt_E (s : State) : (halt s).E = s.E := rfl
@[simp] theorem halt_running (s : State) : (halt s).running = false := rfl
@[simp] theorem halt_status (s : State) : (halt s).status = .halted := rfl
@[simp] theorem halt_mem (s : State) : (halt s).mem = s.mem := rfl
@[simp] theorem halt_out (s : State) : (halt s).out = s.out := rfl
@[simp] theorem halt_load (s : State) : (halt s).load = s.load := rfl
@[simp] theorem halt_trace (s : State) : (halt s).trace = s.trace := rfl
@[simp] theorem halt_params (s : State) : (halt s).params = s.params := rfl
@[simp] theorem halt_reg (s : State) (q : RegIx) : (halt s).reg q = s.reg q := rfl
@[simp] theorem halt_byteAt (s : State) (addr : Nat) : (halt s).byteAt addr = s.byteAt addr := rfl

/-! ## State.setReg -/

@[simp] theorem State.setReg_x (s : State) (r : RegIx) (v : Byte) : (s.setReg r v).x = s.x.set r v := rfl
@[simp] theorem State.setReg_pc (s : State) (r : RegIx) (v : Byte) : (s.setReg r v).pc = s.pc := rfl
@[simp] theorem State.setReg_E (s : State) (r : RegIx) (v : Byte) : (s.setReg r v).E = s.E := rfl
@[simp] theorem State.setReg_running (s : State) (r : RegIx) (v : Byte) : (s.setReg r v).running = s.running := rfl
@[simp] theorem State.setReg_status (s : State) (r : RegIx) (v : Byte) : (s.setReg r v).status = s.status := rfl
@[simp] theorem State.setReg_mem (s : State) (r : RegIx) (v : Byte) : (s.setReg r v).mem = s.mem := rfl
@[simp] theorem State.setReg_out (s : State) (r : RegIx) (v : Byte) : (s.setReg r v).out = s.out := rfl
@[simp] theorem State.setReg_load (s : State) (r : RegIx) (v : Byte) : (s.setReg r v).load = s.load := rfl
@[simp] theorem State.setReg_trace (s : State) (r : RegIx) (v : Byte) : (s.setReg r v).trace = s.trace := rfl
@[simp] theorem State.setReg_params (s : State) (r : RegIx) (v : Byte) : (s.setReg r v).params = s.params := rfl
@[simp] theorem State.setReg_byteAt (s : State) (r : RegIx) (v : Byte) (addr : Nat) : (s.setReg r v).byteAt addr = s.byteAt addr := rfl

/-! ## State.jumpTo -/

@[simp] theorem State.jumpTo_x (s : State) (v : Byte) : (s.jumpTo v).x = s.x := rfl
@[simp] theorem State.jumpTo_pc (s : State) (v : Byte) : (s.jumpTo v).pc = v.toNat := rfl
@[simp] theorem State.jumpTo_E (s : State) (v : Byte) : (s.jumpTo v).E = s.E := rfl
@[simp] theorem State.jumpTo_running (s : State) (v : Byte) : (s.jumpTo v).running = s.running := rfl
@[simp] theorem State.jumpTo_status (s : State) (v : Byte) : (s.jumpTo v).status = s.status := rfl
@[simp] theorem State.jumpTo_mem (s : State) (v : Byte) : (s.jumpTo v).mem = s.mem := rfl
@[simp] theorem State.jumpTo_out (s : State) (v : Byte) : (s.jumpTo v).out = s.out := rfl
@[simp] theorem State.jumpTo_load (s : State) (v : Byte) : (s.jumpTo v).load = s.load := rfl
@[simp] theorem State.jumpTo_trace (s : State) (v : Byte) : (s.jumpTo v).trace = s.trace := rfl
@[simp] theorem State.jumpTo_params (s : State) (v : Byte) : (s.jumpTo v).params = s.params := rfl
@[simp] theorem State.jumpTo_reg (s : State) (v : Byte) (q : RegIx) : (s.jumpTo v).reg q = s.reg q := rfl
@[simp] theorem State.jumpTo_byteAt (s : State) (v : Byte) (addr : Nat) : (s.jumpTo v).byteAt addr = s.byteAt addr := rfl

/-! ## State.advance -/

@[simp] theorem State.advance_x (s : State) (n : Nat) : (s.advance n).x = s.x := rfl
@[simp] theorem State.advance_pc (s : State) (n : Nat) : (s.advance n).pc = s.pc + n := rfl
@[simp] theorem State.advance_E (s : State) (n : Nat) : (s.advance n).E = s.E := rfl
@[simp] theorem State.advance_running (s : State) (n : Nat) : (s.advance n).running = s.running := rfl
@[simp] theorem State.advance_status (s : State) (n : Nat) : (s.advance n).status = s.status := rfl
@[simp] theorem State.advance_mem (s : State) (n : Nat) : (s.advance n).mem = s.mem := rfl
@[simp] theorem State.advance_out (s : State) (n : Nat) : (s.advance n).out = s.out := rfl
@[simp] theorem State.advance_load (s : State) (n : Nat) : (s.advance n).load = s.load := rfl
@[simp] theorem State.advance_trace (s : State) (n : Nat) : (s.advance n).trace = s.trace := rfl
@[simp] theorem State.advance_params (s : State) (n : Nat) : (s.advance n).params = s.params := rfl
@[simp] theorem State.advance_reg (s : State) (n : Nat) (q : RegIx) : (s.advance n).reg q = s.reg q := rfl
@[simp] theorem State.advance_byteAt (s : State) (n : Nat) (addr : Nat) : (s.advance n).byteAt addr = s.byteAt addr := rfl

/-! ## State.emit -/

@[simp] theorem State.emit_x (s : State) (v : Byte) : (s.emit v).x = s.x := rfl
@[simp] theorem State.emit_pc (s : State) (v : Byte) : (s.emit v).pc = s.pc := rfl
@[simp] theorem State.emit_E (s : State) (v : Byte) : (s.emit v).E = s.E := rfl
@[simp] theorem State.emit_running (s : State) (v : Byte) : (s.emit v).running = s.running := rfl
@[simp] theorem State.emit_status (s : State) (v : Byte) : (s.emit v).status = s.status := rfl
@[simp] theorem State.emit_mem (s : State) (v : Byte) : (s.emit v).mem = s.mem := rfl
@[simp] theorem State.emit_out (s : State) (v : Byte) : (s.emit v).out = s.out ++ [v] := rfl
@[simp] theorem State.emit_load (s : State) (v : Byte) : (s.emit v).load = s.load := rfl
@[simp] theorem State.emit_trace (s : State) (v : Byte) : (s.emit v).trace = s.trace := rfl
@[simp] theorem State.emit_params (s : State) (v : Byte) : (s.emit v).params = s.params := rfl
@[simp] theorem State.emit_reg (s : State) (v : Byte) (q : RegIx) : (s.emit v).reg q = s.reg q := rfl
@[simp] theorem State.emit_byteAt (s : State) (v : Byte) (addr : Nat) : (s.emit v).byteAt addr = s.byteAt addr := rfl

/-! ## State.setE -/

@[simp] theorem State.setE_x (s : State) (v : Bool) : (s.setE v).x = s.x := rfl
@[simp] theorem State.setE_pc (s : State) (v : Bool) : (s.setE v).pc = s.pc := rfl
@[simp] theorem State.setE_E (s : State) (v : Bool) : (s.setE v).E = v := rfl
@[simp] theorem State.setE_running (s : State) (v : Bool) : (s.setE v).running = s.running := rfl
@[simp] theorem State.setE_status (s : State) (v : Bool) : (s.setE v).status = s.status := rfl
@[simp] theorem State.setE_mem (s : State) (v : Bool) : (s.setE v).mem = s.mem := rfl
@[simp] theorem State.setE_out (s : State) (v : Bool) : (s.setE v).out = s.out := rfl
@[simp] theorem State.setE_load (s : State) (v : Bool) : (s.setE v).load = s.load := rfl
@[simp] theorem State.setE_trace (s : State) (v : Bool) : (s.setE v).trace = s.trace := rfl
@[simp] theorem State.setE_params (s : State) (v : Bool) : (s.setE v).params = s.params := rfl
@[simp] theorem State.setE_reg (s : State) (v : Bool) (q : RegIx) : (s.setE v).reg q = s.reg q := rfl
@[simp] theorem State.setE_byteAt (s : State) (v : Bool) (addr : Nat) : (s.setE v).byteAt addr = s.byteAt addr := rfl

/-! ## startEngine -/

@[simp] theorem startEngine_x (s : State) : (startEngine s).x = s.x := rfl
@[simp] theorem startEngine_pc (s : State) : (startEngine s).pc = Config.resetPc := rfl
@[simp] theorem startEngine_E (s : State) : (startEngine s).E = s.params.resetE := rfl
@[simp] theorem startEngine_running (s : State) : (startEngine s).running = true := rfl
@[simp] theorem startEngine_status (s : State) : (startEngine s).status = s.status := rfl
@[simp] theorem startEngine_mem (s : State) : (startEngine s).mem = s.mem := rfl
@[simp] theorem startEngine_out (s : State) : (startEngine s).out = s.out := rfl
@[simp] theorem startEngine_load (s : State) : (startEngine s).load = .loaded := rfl
@[simp] theorem startEngine_trace (s : State) : (startEngine s).trace = s.trace := rfl
@[simp] theorem startEngine_params (s : State) : (startEngine s).params = s.params := rfl
@[simp] theorem startEngine_reg (s : State) (q : RegIx) : (startEngine s).reg q = s.reg q := rfl
@[simp] theorem startEngine_byteAt (s : State) (addr : Nat) : (startEngine s).byteAt addr = s.byteAt addr := rfl

/-! ## State.untraced -/

@[simp] theorem State.untraced_x (s : State) : (s.untraced).x = s.x := rfl
@[simp] theorem State.untraced_pc (s : State) : (s.untraced).pc = s.pc := rfl
@[simp] theorem State.untraced_E (s : State) : (s.untraced).E = s.E := rfl
@[simp] theorem State.untraced_running (s : State) : (s.untraced).running = s.running := rfl
@[simp] theorem State.untraced_status (s : State) : (s.untraced).status = s.status := rfl
@[simp] theorem State.untraced_mem (s : State) : (s.untraced).mem = s.mem := rfl
@[simp] theorem State.untraced_out (s : State) : (s.untraced).out = s.out := rfl
@[simp] theorem State.untraced_load (s : State) : (s.untraced).load = s.load := rfl
@[simp] theorem State.untraced_trace (s : State) : (s.untraced).trace = [] := rfl
@[simp] theorem State.untraced_params (s : State) : (s.untraced).params = { s.params with traceEnabled := false } := rfl
@[simp] theorem State.untraced_reg (s : State) (q : RegIx) : (s.untraced).reg q = s.reg q := rfl
@[simp] theorem State.untraced_byteAt (s : State) (addr : Nat) : (s.untraced).byteAt addr = s.byteAt addr := rfl

/-! ## State.withPolicy -/

@[simp] theorem State.withPolicy_x (s : State) (p : ArithPolicy) : (s.withPolicy p).x = s.x := rfl
@[simp] theorem State.withPolicy_pc (s : State) (p : ArithPolicy) : (s.withPolicy p).pc = s.pc := rfl
@[simp] theorem State.withPolicy_E (s : State) (p : ArithPolicy) : (s.withPolicy p).E = s.E := rfl
@[simp] theorem State.withPolicy_running (s : State) (p : ArithPolicy) : (s.withPolicy p).running = s.running := rfl
@[simp] theorem State.withPolicy_status (s : State) (p : ArithPolicy) : (s.withPolicy p).status = s.status := rfl
@[simp] theorem State.withPolicy_mem (s : State) (p : ArithPolicy) : (s.withPolicy p).mem = s.mem := rfl
@[simp] theorem State.withPolicy_out (s : State) (p : ArithPolicy) : (s.withPolicy p).out = s.out := rfl
@[simp] theorem State.withPolicy_load (s : State) (p : ArithPolicy) : (s.withPolicy p).load = s.load := rfl
@[simp] theorem State.withPolicy_trace (s : State) (p : ArithPolicy) : (s.withPolicy p).trace = s.trace := rfl
@[simp] theorem State.withPolicy_params (s : State) (p : ArithPolicy) : (s.withPolicy p).params = { s.params with arithPolicy := p } := rfl
@[simp] theorem State.withPolicy_reg (s : State) (p : ArithPolicy) (q : RegIx) : (s.withPolicy p).reg q = s.reg q := rfl
@[simp] theorem State.withPolicy_byteAt (s : State) (p : ArithPolicy) (addr : Nat) : (s.withPolicy p).byteAt addr = s.byteAt addr := rfl

/-! ## Registers -/

theorem reg_setReg (s : State) (r q : RegIx) (v : Byte) :
    (s.setReg r v).reg q = if q = r then v else s.reg q := by
  simp [State.reg, State.setReg, Vector.getElem_set, Fin.ext_iff, eq_comm]

@[simp] theorem reg_setReg_same (s : State) (r : RegIx) (v : Byte) : (s.setReg r v).reg r = v := by
  simp [reg_setReg]

theorem reg_setReg_of_ne (s : State) (r q : RegIx) (v : Byte) (h : q ≠ r) : (s.setReg r v).reg q = s.reg q := by
  simp [reg_setReg, h]

/-- Two states whose registers read the same hold the same register file. -/
theorem x_ext (s t : State) (h : ∀ r, t.reg r = s.reg r) : t.x = s.x := by
  apply Vector.ext
  intro i hi
  exact h ⟨i, hi⟩

/-! ## emitTrace: everything but the trace channel is the same -/

@[simp] theorem emitTrace_x (op a b : Byte) (s : State) : (emitTrace op a b s).x = s.x := by
  unfold emitTrace; split <;> rfl
@[simp] theorem emitTrace_pc (op a b : Byte) (s : State) : (emitTrace op a b s).pc = s.pc := by
  unfold emitTrace; split <;> rfl
@[simp] theorem emitTrace_E (op a b : Byte) (s : State) : (emitTrace op a b s).E = s.E := by
  unfold emitTrace; split <;> rfl
@[simp] theorem emitTrace_running (op a b : Byte) (s : State) : (emitTrace op a b s).running = s.running := by
  unfold emitTrace; split <;> rfl
@[simp] theorem emitTrace_status (op a b : Byte) (s : State) : (emitTrace op a b s).status = s.status := by
  unfold emitTrace; split <;> rfl
@[simp] theorem emitTrace_mem (op a b : Byte) (s : State) : (emitTrace op a b s).mem = s.mem := by
  unfold emitTrace; split <;> rfl
@[simp] theorem emitTrace_out (op a b : Byte) (s : State) : (emitTrace op a b s).out = s.out := by
  unfold emitTrace; split <;> rfl
@[simp] theorem emitTrace_load (op a b : Byte) (s : State) : (emitTrace op a b s).load = s.load := by
  unfold emitTrace; split <;> rfl
theorem emitTrace_trace (op a b : Byte) (s : State) :
    (emitTrace op a b s).trace = if s.params.traceEnabled then s.trace ++ [⟨s.pc, op, a, b, s.x⟩] else s.trace := by
  unfold emitTrace; split <;> rfl
@[simp] theorem emitTrace_params (op a b : Byte) (s : State) : (emitTrace op a b s).params = s.params := by
  unfold emitTrace; split <;> rfl
@[simp] theorem emitTrace_reg (op a b : Byte) (s : State) (q : RegIx) : (emitTrace op a b s).reg q = s.reg q := by
  simp [State.reg]
@[simp] theorem emitTrace_byteAt (op a b : Byte) (s : State) (addr : Nat) :
    (emitTrace op a b s).byteAt addr = s.byteAt addr := by
  simp [State.byteAt]
/-- With the trace off, no record is emitted. -/
theorem emitTrace_off (op a b : Byte) (s : State) (h : s.params.traceEnabled = false) : emitTrace op a b s = s := by
  simp [emitTrace, h]

/-! ## Reset -/

@[simp] theorem resetWith_mem (p : Params) : (State.resetWith p).mem = [] := rfl
@[simp] theorem resetWith_running (p : Params) : (State.resetWith p).running = false := rfl
@[simp] theorem resetWith_load (p : Params) : (State.resetWith p).load = .awaiting := rfl
@[simp] theorem resetWith_params (p : Params) : (State.resetWith p).params = p := rfl

end Sys2Proof.Machine
end

