-- ==== Sys2Proof/Laws/Memory.lean ====
section
/-! SUPPORT. The laws of memory cells: read after write, the canonical form, and that equal reads are equal data. -/

namespace Sys2Proof.Machine

theorem Memory.wfFrom_cons {lo a : Nat} {v : Byte} {rest : Memory} :
    Memory.wfFrom lo ((a, v) :: rest) = true ↔ lo ≤ a ∧ a < 256 ∧ v ≠ 0 ∧ Memory.wfFrom (a + 1) rest = true := by
  simp [Memory.wfFrom, and_assoc]

/-- A canonical list that starts at `lo` starts at any lower address too. -/
theorem Memory.wfFrom_mono {lo lo' : Nat} {m : Memory} (h : lo' ≤ lo) (hw : Memory.wfFrom lo m = true) :
    Memory.wfFrom lo' m = true := by
  cases m with
  | nil => rfl
  | cons c rest =>
    obtain ⟨a, v⟩ := c
    rw [Memory.wfFrom_cons] at *
    exact ⟨by omega, hw.2⟩

/-- Below its first address a canonical list reads 0. -/
theorem Memory.get_below {lo addr : Nat} {m : Memory} (hw : Memory.wfFrom lo m = true) (h : addr < lo) :
    Memory.get m addr = 0 := by
  induction m generalizing lo with
  | nil => rfl
  | cons c rest ih =>
    obtain ⟨a, v⟩ := c
    rw [Memory.wfFrom_cons] at hw
    rw [Memory.get, if_neg (by omega)]
    exact ih hw.2.2.2 (by omega)

/-- Outside the 256 cells a canonical memory reads 0: nothing is listed there. -/
theorem Memory.get_outside {lo addr : Nat} {m : Memory} (hw : Memory.wfFrom lo m = true) (h : 256 ≤ addr) :
    Memory.get m addr = 0 := by
  induction m generalizing lo with
  | nil => rfl
  | cons c rest ih =>
    obtain ⟨a, v⟩ := c
    rw [Memory.wfFrom_cons] at hw
    rw [Memory.get, if_neg (by omega)]
    exact ih hw.2.2.2

/-- Every write inside memory keeps the canonical form. -/
theorem Memory.set_wfFrom {lo addr : Nat} {v : Byte} {m : Memory} (hw : Memory.wfFrom lo m = true) (hlo : lo ≤ addr)
    (h : addr < 256) : Memory.wfFrom lo (Memory.set m addr v) = true := by
  induction m generalizing lo with
  | nil =>
    unfold Memory.set
    split
    · rfl
    · exact Memory.wfFrom_cons.2 ⟨hlo, h, by assumption, rfl⟩
  | cons c rest ih =>
    obtain ⟨a, w⟩ := c
    have hc := Memory.wfFrom_cons.1 hw
    unfold Memory.set
    split
    · split
      · exact hw
      · exact Memory.wfFrom_cons.2 ⟨hlo, h, by assumption, Memory.wfFrom_cons.2 ⟨by omega, hc.2⟩⟩
    · split
      · split
        · exact Memory.wfFrom_mono (by omega) hc.2.2.2
        · exact Memory.wfFrom_cons.2 ⟨hc.1, hc.2.1, by assumption, hc.2.2.2⟩
      · exact Memory.wfFrom_cons.2 ⟨hc.1, hc.2.1, hc.2.2.1, ih hc.2.2.2 (by omega)⟩

theorem Memory.set_wf {addr : Nat} {v : Byte} {m : Memory} (hw : Memory.wf m = true) (h : addr < 256) :
    Memory.wf (Memory.set m addr v) = true :=
  Memory.set_wfFrom hw (Nat.zero_le addr) h

theorem State.reset_mem_wf : Memory.wf State.reset.mem = true := rfl

/-- Read after write: the written cell holds the value, every other cell is left alone. -/
theorem Memory.get_set_from {lo addr : Nat} {v : Byte} {m : Memory} (hw : Memory.wfFrom lo m = true) (q : Nat) :
    Memory.get (Memory.set m addr v) q = if q = addr then v else Memory.get m q := by
  induction m generalizing lo with
  | nil =>
    unfold Memory.set
    by_cases hv : v = 0
    · rw [if_pos hv, hv]
      split <;> rfl
    · rw [if_neg hv]
      by_cases hq : q = addr
      · simp [Memory.get, hq]
      · simp [Memory.get, hq, Ne.symm hq]
  | cons c rest ih =>
    obtain ⟨a, w⟩ := c
    have hc := Memory.wfFrom_cons.1 hw
    have hlow : q < a + 1 → Memory.get rest q = 0 := Memory.get_below hc.2.2.2
    unfold Memory.set
    split
    · next hlt =>
      split
      · next hv =>
        split
        · next hq => rw [Memory.get, if_neg (by omega), hlow (by omega), hv]
        · rfl
      · by_cases hq : q = addr
        · simp [Memory.get, hq]
        · rw [Memory.get, if_neg (by omega), if_neg hq]
    · next hge =>
      split
      · next heq =>
        split
        · next hv =>
          by_cases hq : q = addr
          · rw [if_pos hq, hlow (by omega), hv]
          · rw [if_neg hq, Memory.get, if_neg (by omega)]
        · by_cases hq : q = addr
          · simp [Memory.get, hq, heq]
          · rw [Memory.get, if_neg (by omega), if_neg hq, Memory.get, if_neg (by omega)]
      · next hne =>
        by_cases haq : a = q
        · rw [Memory.get, if_pos haq, if_neg (by omega), Memory.get, if_pos haq]
        · rw [Memory.get, if_neg haq, ih hc.2.2.2, Memory.get, if_neg haq]

theorem Memory.get_set {addr : Nat} {v : Byte} {m : Memory} (hw : Memory.wf m = true) (q : Nat) :
    Memory.get (Memory.set m addr v) q = if q = addr then v else Memory.get m q :=
  Memory.get_set_from hw q

end Sys2Proof.Machine
end

