-- ==== Sys2Proof/Laws/Engine.lean ====
section
/-! SUPPORT. What one access, one fetch, the stages before the handler, and one step can do. -/

namespace Sys2Proof.Machine

theorem memRead_inside {addr : Nat} (h : addr < 256) (s : State) : memRead addr s = .value (s.byteAt addr) := by
  simp [memRead, Config.memSize, h, State.byteAt]

theorem memRead_outside {addr : Nat} (h : 256 ≤ addr) (s : State) :
    memRead addr s = .raised (raise (.memoryFault addr s.pc) s) := by
  simp [memRead, Config.memSize, Nat.not_lt.2 h]

/-- A fetch at 253 or below reads the three bytes (R60). -/
theorem fetch_inside {s : State} (h : s.pc ≤ 253) :
    fetch s = .bytes (s.byteAt s.pc) (s.byteAt (s.pc + 1)) (s.byteAt (s.pc + 2)) := by
  simp [fetch, memRead_inside (show s.pc < 256 by omega), memRead_inside (show s.pc + 1 < 256 by omega),
    memRead_inside (show s.pc + 2 < 256 by omega)]

/-- A fetch above 253 raises MemoryFault with the lowest address out of range (R60). -/
theorem fetch_outside {s : State} (h : 253 < s.pc) :
    fetch s = .raised (raise (.memoryFault (max 256 s.pc) s.pc) s) := by
  unfold fetch
  by_cases h0 : 256 ≤ s.pc
  · simp [memRead_outside h0, Nat.max_eq_right h0]
  · rw [memRead_inside (by omega)]
    by_cases h1 : 256 ≤ s.pc + 1
    · rw [memRead_outside h1, show max 256 s.pc = s.pc + 1 by omega]
    · rw [memRead_inside (by omega), memRead_outside (by omega), show max 256 s.pc = s.pc + 2 by omega]

/-- The three ways the stages before the handler end (R59): MemoryFault, UnknownOpcode, or a decoded instruction. -/
theorem frontEnd_cases (s : State) :
    (253 < s.pc ∧ frontEnd s = .ended (raise (.memoryFault (max 256 s.pc) s.pc) s)) ∨
    (s.pc ≤ 253 ∧ s.params.opcodeMap.lookup (s.byteAt s.pc) = none ∧
      frontEnd s = .ended (raise (.unknownOpcode (s.byteAt s.pc) s.pc)
        (emitTrace (s.byteAt s.pc) (s.byteAt (s.pc + 1)) (s.byteAt (s.pc + 2)) s))) ∨
    (s.pc ≤ 253 ∧ ∃ k, s.params.opcodeMap.lookup (s.byteAt s.pc) = some k ∧
      frontEnd s = .decoded (k.withOperands (s.byteAt (s.pc + 1)) (s.byteAt (s.pc + 2)))
        (emitTrace (s.byteAt s.pc) (s.byteAt (s.pc + 1)) (s.byteAt (s.pc + 2)) s)) := by
  by_cases h : s.pc ≤ 253
  · cases hl : s.params.opcodeMap.lookup (s.byteAt s.pc) with
    | none => exact .inr (.inl ⟨h, rfl, by simp [frontEnd, fetch_inside h, decodeFetched, hl]⟩)
    | some k => exact .inr (.inr ⟨h, k, rfl, by simp [frontEnd, fetch_inside h, decodeFetched, hl]⟩)
  · exact .inl ⟨by omega, by simp [frontEnd, fetch_outside (Nat.not_le.1 h)]⟩

theorem step_halted {s : State} (h : s.running = false) : step s = .fault .stepNotEnabled := by
  simp [step, h]

/-- Inversion of a step that answers a next state (R59). -/
theorem step_cases {s t : State} (h : step s = .next t) :
    s.running = true ∧
    ((253 < s.pc ∧ t = raise (.memoryFault (max 256 s.pc) s.pc) s) ∨
     (s.pc ≤ 253 ∧ s.params.opcodeMap.lookup (s.byteAt s.pc) = none ∧
      t = raise (.unknownOpcode (s.byteAt s.pc) s.pc)
        (emitTrace (s.byteAt s.pc) (s.byteAt (s.pc + 1)) (s.byteAt (s.pc + 2)) s)) ∨
     (s.pc ≤ 253 ∧ ∃ k, s.params.opcodeMap.lookup (s.byteAt s.pc) = some k ∧
      exec (k.withOperands (s.byteAt (s.pc + 1)) (s.byteAt (s.pc + 2)))
        (emitTrace (s.byteAt s.pc) (s.byteAt (s.pc + 1)) (s.byteAt (s.pc + 2)) s) = .next t)) := by
  cases hr : s.running with
  | false => simp [step, hr] at h
  | true =>
    refine ⟨rfl, ?_⟩
    simp only [step, hr, if_true] at h
    obtain ⟨hp, hf⟩ | ⟨hp, hl, hf⟩ | ⟨hp, k, hl, hf⟩ := frontEnd_cases s
    · rw [hf] at h
      injection h with h
      exact .inl ⟨hp, h.symm⟩
    · rw [hf] at h
      injection h with h
      exact .inr (.inl ⟨hp, hl, h.symm⟩)
    · rw [hf] at h
      exact .inr (.inr ⟨hp, k, hl, h⟩)

/-- Placing an instruction keeps the canonical form. -/
theorem State.withFetchWord_mem_wf {s : State} (hw : Memory.wf s.mem = true) (nbits w : Nat) :
    Memory.wf (s.withFetchWord nbits w).mem = true := by
  have hp : fetchablePc s.pc + 2 < 256 := by
    unfold fetchablePc
    split
    · assumption
    · decide
  exact Memory.set_wf (Memory.set_wf (Memory.set_wf hw (by omega)) (by omega)) hp

end Sys2Proof.Machine
end

