-- ==== Sys2Proof/Laws/Operands.lean ====
section
/-! SUPPORT. What operand validation can do (spec 40_engine_cycle.md R62). -/

namespace Sys2Proof.Machine

theorem regIndex_of_lt {a : Byte} (h : a.toNat < 8) : regIndex a = some ⟨a.toNat, h⟩ := by
  simp [regIndex, h]

theorem regIndex_of_ge {a : Byte} (h : 8 ≤ a.toNat) : regIndex a = none := by
  simp [regIndex, Nat.not_lt.2 h]

/-- The byte of a register's own index names it. -/
theorem regIndex_ofNat (r : RegIx) : regIndex (BitVec.ofNat 8 r.val) = some r := by
  have h : (BitVec.ofNat 8 r.val).toNat = r.val := by
    rw [BitVec.toNat_ofNat, Nat.mod_eq_of_lt (by omega)]
  simp [regIndex, h]

/-- One operand: it names a register and the continuation runs, or OutOfRange is raised and nothing else happens. -/
theorem withReg_cases (a : Byte) (s : State) (k : RegIx → State) :
    (∃ h : a.toNat < 8, withReg a s k = k ⟨a.toNat, h⟩) ∨
      (8 ≤ a.toNat ∧ withReg a s k = raise (.outOfRange a s.pc) s) := by
  by_cases h : a.toNat < 8
  · exact .inl ⟨h, by simp [withReg, regIndex_of_lt h]⟩
  · exact .inr ⟨by omega, by simp [withReg, regIndex_of_ge (Nat.not_lt.1 h)]⟩

theorem withReg_of_lt {a : Byte} (h : a.toNat < 8) (s : State) (k : RegIx → State) :
    withReg a s k = k ⟨a.toNat, h⟩ := by
  simp [withReg, regIndex_of_lt h]

theorem withReg_of_ge {a : Byte} (h : 8 ≤ a.toNat) (s : State) (k : RegIx → State) :
    withReg a s k = raise (.outOfRange a s.pc) s := by
  simp [withReg, regIndex_of_ge h]

/-- Two operands: both name registers, or the first one that does not is reported. -/
theorem withRegs_cases (a b : Byte) (s : State) (k : RegIx → RegIx → State) :
    (∃ (ha : a.toNat < 8) (hb : b.toNat < 8), withRegs a b s k = k ⟨a.toNat, ha⟩ ⟨b.toNat, hb⟩) ∨
      (8 ≤ a.toNat ∧ withRegs a b s k = raise (.outOfRange a s.pc) s) ∨
      (a.toNat < 8 ∧ 8 ≤ b.toNat ∧ withRegs a b s k = raise (.outOfRange b s.pc) s) := by
  unfold withRegs
  obtain ⟨ha, h⟩ | ⟨ha, h⟩ := withReg_cases a s fun ra => withReg b s fun rb => k ra rb
  · obtain ⟨hb, h'⟩ | ⟨hb, h'⟩ := withReg_cases b s (k ⟨a.toNat, ha⟩)
    · exact .inl ⟨ha, hb, h.trans h'⟩
    · exact .inr (.inr ⟨ha, hb, h.trans h'⟩)
  · exact .inr (.inl ⟨ha, h⟩)

end Sys2Proof.Machine
end

