-- ==== Sys2Proof/Laws/Exec.lean ====
section
/-! SUPPORT. What each handler answers when its operands name registers, and the one inversion lemma of exec: everything a
handler can do. -/

namespace Sys2Proof.Machine

variable {s : State} {a b : Byte}

/-! ## The handlers on operands that name registers -/

theorem exec_hlt (s : State) : exec .hlt s = .next ((halt s).advance 1) := rfl

theorem exec_ldi (ha : a.toNat < 8) (imm : Byte) :
    exec (.ldi a imm) s = .next ((s.setReg ⟨a.toNat, ha⟩ imm).advance 3) := by
  simp only [exec, execLdi, withReg_of_lt ha]

theorem exec_prn (ha : a.toNat < 8) :
    exec (.prn a) s = .next ((s.emit (s.reg ⟨a.toNat, ha⟩)).advance 2) := by
  simp only [exec, execPrn, withReg_of_lt ha]

theorem exec_cmp (ha : a.toNat < 8) (hb : b.toNat < 8) :
    exec (.cmp a b) s =
      .next ((s.setE (equalFlag (s.reg ⟨a.toNat, ha⟩) (s.reg ⟨b.toNat, hb⟩))).advance 3) := by
  simp only [exec, execCmp, withRegs, withReg_of_lt ha, withReg_of_lt hb]

theorem branch_of_lt (ha : a.toNat < 8) (taken : Bool) :
    branch taken a s = if taken then s.jumpTo (s.reg ⟨a.toNat, ha⟩) else s.advance 2 := by
  simp only [branch, withReg_of_lt ha]

theorem exec_jmp (ha : a.toNat < 8) : exec (.jmp a) s = .next (s.jumpTo (s.reg ⟨a.toNat, ha⟩)) := by
  simp [exec, execJmp, branch_of_lt ha]

theorem exec_jeq (ha : a.toNat < 8) :
    exec (.jeq a) s = .next (if s.E then s.jumpTo (s.reg ⟨a.toNat, ha⟩) else s.advance 2) := by
  simp only [exec, execJeq, branch_of_lt ha]

theorem exec_jne (ha : a.toNat < 8) :
    exec (.jne a) s = .next (if s.E then s.advance 2 else s.jumpTo (s.reg ⟨a.toNat, ha⟩)) := by
  cases h : s.E <;> simp [exec, execJne, branch_of_lt ha, h]

/-- What ADD and SUB do once their operands name registers. -/
theorem aluRegisters_of_lt (op : AluOp) (ha : a.toNat < 8) (hb : b.toNat < 8) :
    aluRegisters op a b s =
      match alu s.params.arithPolicy op (s.reg ⟨a.toNat, ha⟩) (s.reg ⟨b.toNat, hb⟩) with
      | some v => (s.setReg ⟨a.toNat, ha⟩ v).advance 3
      | none => raise (.arithRange s.pc) s := by
  cases h : alu s.params.arithPolicy op (s.reg ⟨a.toNat, ha⟩) (s.reg ⟨b.toNat, hb⟩) <;>
    simp only [aluRegisters, withRegs, withReg_of_lt ha, withReg_of_lt hb, h]

/-! ## The ALU -/

theorem alu_wrap_add (u v : Byte) :
    ∃ w, alu .wrap .add u v = some w ∧ w.toNat = (u.toNat + v.toNat) % 256 := by
  refine ⟨_, rfl, ?_⟩
  simp only [aluExact, BitVec.toNat_ofInt]
  omega

theorem alu_wrap_sub (u v : Byte) :
    ∃ w, alu .wrap .sub u v = some w ∧ (w.toNat : Int) = ((u.toNat : Int) - (v.toNat : Int)) % 256 := by
  refine ⟨_, rfl, ?_⟩
  simp only [aluExact, BitVec.toNat_ofInt]
  omega

theorem alu_fault_none {op : AluOp} {u v : Byte} : alu .fault op u v = none ↔ aluInRange op u v = false := by
  simp [alu]

theorem alu_fault_some {op : AluOp} {u v w : Byte} (h : alu .fault op u v = some w) : alu .wrap op u v = some w := by
  simp only [alu] at h ⊢
  split at h
  · exact h
  · contradiction

/-- The ALU answers nothing only under ARITH_POLICY = fault. -/
theorem alu_none {p : ArithPolicy} {op : AluOp} {u v : Byte} (h : alu p op u v = none) : p = .fault := by
  cases p
  · simp [alu] at h
  · rfl

/-- ADD raises ArithRange exactly under ARITH_POLICY = fault and for a sum above 255 (R87). -/
theorem alu_add_eq_none {p : ArithPolicy} {u v : Byte} :
    alu p .add u v = none ↔ p = .fault ∧ 255 < u.toNat + v.toNat := by
  cases p
  · simp [alu]
  · rw [alu_fault_none, aluInRange, decide_eq_false_iff_not]
    simp only [aluExact, true_and]
    omega

/-- SUB raises ArithRange exactly under ARITH_POLICY = fault and for a minuend below the subtrahend (R87). -/
theorem alu_sub_eq_none {p : ArithPolicy} {u v : Byte} :
    alu p .sub u v = none ↔ p = .fault ∧ u.toNat < v.toNat := by
  cases p
  · simp [alu]
  · rw [alu_fault_none, aluInRange, decide_eq_false_iff_not]
    simp only [aluExact, true_and]
    omega

/-! ## Inversion -/

/-- The instruction that drives the ALU with `op`. -/
def aluInstr (op : AluOp) (a b : Byte) : Instr :=
  match op with
  | .add => .add a b
  | .sub => .sub a b

/-- Everything a handler can do in state `s`: its own effect, or one of the two conditions a handler can raise. -/
inductive Effect (i : Instr) (s : State) : State → Prop where
  | halts (hi : i = .hlt) : Effect i s ((halt s).advance 1)
  | outOfRange (r : Byte) (hr : r ∈ i.regOperands) (h : 8 ≤ r.toNat) : Effect i s (raise (.outOfRange r s.pc) s)
  | loads (a imm : Byte) (ha : a.toNat < 8) (hi : i = .ldi a imm) :
      Effect i s ((s.setReg ⟨a.toNat, ha⟩ imm).advance 3)
  | prints (a : Byte) (ha : a.toNat < 8) (hi : i = .prn a) :
      Effect i s ((s.emit (s.reg ⟨a.toNat, ha⟩)).advance 2)
  | compares (a b : Byte) (ha : a.toNat < 8) (hb : b.toNat < 8) (hi : i = .cmp a b) :
      Effect i s ((s.setE (equalFlag (s.reg ⟨a.toNat, ha⟩) (s.reg ⟨b.toNat, hb⟩))).advance 3)
  | jumps (a : Byte) (ha : a.toNat < 8) (hi : i = .jmp a ∨ (i = .jeq a ∧ s.E = true) ∨ (i = .jne a ∧ s.E = false)) :
      Effect i s (s.jumpTo (s.reg ⟨a.toNat, ha⟩))
  | fallsThrough (a : Byte) (ha : a.toNat < 8) (hi : (i = .jeq a ∧ s.E = false) ∨ (i = .jne a ∧ s.E = true)) :
      Effect i s (s.advance 2)
  | computes (op : AluOp) (a b v : Byte) (ha : a.toNat < 8) (hb : b.toNat < 8) (hi : i = aluInstr op a b)
      (hv : alu s.params.arithPolicy op (s.reg ⟨a.toNat, ha⟩) (s.reg ⟨b.toNat, hb⟩) = some v) :
      Effect i s ((s.setReg ⟨a.toNat, ha⟩ v).advance 3)
  | arithRange (op : AluOp) (a b : Byte) (ha : a.toNat < 8) (hb : b.toNat < 8) (hi : i = aluInstr op a b)
      (hv : alu s.params.arithPolicy op (s.reg ⟨a.toNat, ha⟩) (s.reg ⟨b.toNat, hb⟩) = none) :
      Effect i s (raise (.arithRange s.pc) s)

/-- An effect on one validated operand, given the effect on every operand that names a register. -/
theorem effect_withReg {i : Instr} (a : Byte) (s : State) (k : RegIx → State) (hr : a ∈ i.regOperands)
    (h : ∀ ha : a.toNat < 8, Effect i s (k ⟨a.toNat, ha⟩)) : Effect i s (withReg a s k) := by
  obtain ⟨ha, e⟩ | ⟨ha, e⟩ := withReg_cases a s k <;> rw [e]
  · exact h ha
  · exact .outOfRange a hr ha

theorem effect_alu (op : AluOp) (a b : Byte) (s : State) : Effect (aluInstr op a b) s (aluRegisters op a b s) := by
  have hr : (aluInstr op a b).regOperands = [a, b] := by cases op <;> rfl
  refine effect_withReg a s _ (by simp [hr]) fun ha => effect_withReg b s _ (by simp [hr]) fun hb => ?_
  dsimp only
  split
  · next v hv => exact .computes op a b v ha hb rfl hv
  · next hv => exact .arithRange op a b ha hb rfl hv

/-- Inversion of exec: whatever a handler answers is one of these effects. -/
theorem exec_effect {i : Instr} {t : State} (h : exec i s = .next t) : Effect i s t := by
  cases i with
  | hlt => injection h with h; subst h; exact .halts rfl
  | ldi a imm =>
    injection h with h; subst h
    exact effect_withReg a s _ (by simp [Instr.regOperands]) fun ha => .loads a imm ha rfl
  | prn a =>
    injection h with h; subst h
    exact effect_withReg a s _ (by simp [Instr.regOperands]) fun ha => .prints a ha rfl
  | cmp a b =>
    injection h with h; subst h
    exact effect_withReg a s _ (by simp [Instr.regOperands]) fun ha =>
      effect_withReg b s _ (by simp [Instr.regOperands]) fun hb => .compares a b ha hb rfl
  | jmp a =>
    injection h with h; subst h
    exact effect_withReg a s _ (by simp [Instr.regOperands]) fun ha => .jumps a ha (.inl rfl)
  | jeq a =>
    injection h with h; subst h
    refine effect_withReg a s _ (by simp [Instr.regOperands]) fun ha => ?_
    split
    · next hE => exact .jumps a ha (.inr (.inl ⟨rfl, hE⟩))
    · next hE => exact .fallsThrough a ha (.inl ⟨rfl, Bool.eq_false_iff.2 hE⟩)
  | jne a =>
    injection h with h; subst h
    refine effect_withReg a s _ (by simp [Instr.regOperands]) fun ha => ?_
    split
    · next hE => exact .jumps a ha (.inr (.inr ⟨rfl, by simpa using hE⟩))
    · next hE => exact .fallsThrough a ha (.inr ⟨rfl, by simpa using hE⟩)
  | add a b => injection h with h; subst h; exact effect_alu .add a b s
  | sub a b => injection h with h; subst h; exact effect_alu .sub a b s

/-- exec never stops: it answers a next state for every instruction in every state. -/
theorem exec_total (i : Instr) (s : State) : ∃ t, exec i s = .next t := by
  cases i <;> exact ⟨_, rfl⟩

end Sys2Proof.Machine
end

