-- ==== Sys2Proof/Laws/Load.lean ====
section
/-! SUPPORT. What LOAD can do (spec 20_memory.md R40). -/

namespace Sys2Proof.Machine

theorem memWrite_inside {addr : Nat} (h : addr < 256) (v : Byte) (s : State) :
    memWrite addr v s = { s with mem := Memory.set s.mem addr v } := by
  simp [memWrite, Config.memSize, h]

/-- Writing an image that fits changes memory alone, keeps its canonical form, and puts each word in its place. -/
theorem writeImage_spec (ws : List Nat) : ∀ (addr : Nat) (s : State), addr + ws.length ≤ 256 → Memory.wf s.mem = true →
    ∃ m, writeImage addr ws s = { s with mem := m } ∧ Memory.wf m = true ∧
      ∀ q, Memory.get m q =
        if h : addr ≤ q ∧ q - addr < ws.length then BitVec.ofNat 8 (ws[q - addr]'h.2) else Memory.get s.mem q := by
  induction ws with
  | nil =>
    intro addr s _ hw
    exact ⟨s.mem, rfl, hw, fun q => by simp⟩
  | cons w ws ih =>
    intro addr s hlen hw
    have hlt : addr < 256 := by simp at hlen; omega
    obtain ⟨m, hm, hmw, hget⟩ := ih (addr + 1) (memWrite addr (BitVec.ofNat 8 w) s) (by simp at hlen; omega)
      (by rw [memWrite_inside hlt]; exact Memory.set_wf hw hlt)
    refine ⟨m, by rw [writeImage, hm, memWrite_inside hlt], hmw, fun q => ?_⟩
    rw [hget q]
    by_cases hq : q = addr
    · subst hq
      simp [memWrite_inside hlt, Memory.get_set hw]
    · by_cases hin : addr + 1 ≤ q ∧ q - (addr + 1) < ws.length
      · have he : q - addr = q - (addr + 1) + 1 := by omega
        have hin' : addr ≤ q ∧ q - addr < (w :: ws).length := by simp; omega
        rw [dif_pos hin, dif_pos hin']
        simp [he]
      · have hin' : ¬ (addr ≤ q ∧ q - addr < (w :: ws).length) := by simp; omega
        rw [dif_neg hin, dif_neg hin', memWrite_inside hlt]
        simp [Memory.get_set hw, hq]

/-- The four answers of LOAD (R40, R41). -/
theorem loadProgram_cases (ws : List Nat) (s : State) :
    (¬ (s.load = .awaiting ∧ s.running = false) ∧ loadProgram ws s = .notAccepted) ∨
    ((s.load = .awaiting ∧ s.running = false) ∧
      ((256 < ws.length ∧ loadProgram ws s = .refused .loadTooLong { s with load := .refused .loadTooLong }) ∨
       (ws.length ≤ 256 ∧ (∃ w ∈ ws, 255 < w) ∧
          loadProgram ws s = .refused .loadBadWord { s with load := .refused .loadBadWord }) ∨
       (ws.length ≤ 256 ∧ (∀ w ∈ ws, w ≤ 255) ∧
          loadProgram ws s = .accepted (startEngine (writeImage Config.loadBase ws s))))) := by
  by_cases hc : s.load = .awaiting ∧ s.running = false
  · refine .inr ⟨hc, ?_⟩
    unfold loadProgram
    rw [if_pos hc]
    by_cases hl : 256 < ws.length
    · exact .inl ⟨hl, by rw [if_pos hl]⟩
    · rw [if_neg hl]
      by_cases hw : ∃ w ∈ ws, 255 < w
      · exact .inr (.inl ⟨by omega, hw, if_pos (by simpa using hw)⟩)
      · exact .inr (.inr ⟨by omega, fun w h => Nat.not_lt.1 fun h' => hw ⟨w, h, h'⟩, if_neg (by simpa using hw)⟩)
  · exact .inl ⟨hc, if_neg hc⟩

end Sys2Proof.Machine
end

