-- ==== Sys2Proof/Laws/PerInstr.lean ====
section
/-! SUPPORT. Facts about every instruction as syntax, one lemma for each constructor (LAWS.json). -/

namespace Sys2Proof.Laws

/-- The three bytes a fetch reads where an instruction's own bytes are followed by `u` and `v` (spec
40_engine_cycle.md R60). -/
def fetchedFrom (bs : List Byte) (u v : Byte) : List Byte := (bs ++ [u, v]).take 3

/-- Whatever bytes follow an instruction in memory, the fetched bytes decode to it (R43, R48). -/
def FetchedRoundTrip.Statement (i : Instr) : Prop :=
  ∀ (m : OpcodeMap), m.wf = true → ∀ u v : Byte,
    ∃ op a b, fetchedFrom (encodeWith m i) u v = [op, a, b] ∧ decodeFetched m op a b = .instr i

theorem FetchedRoundTrip.hlt : FetchedRoundTrip.Statement .hlt := fun m hm u v =>
  ⟨m.hlt, u, v, rfl, by rw [decodeFetched, show m.hlt = m.opcode .hlt from rfl, m.lookup_opcode hm]; rfl⟩

theorem FetchedRoundTrip.ldi (a imm : Byte) : FetchedRoundTrip.Statement (.ldi a imm) := fun m hm _ _ =>
  ⟨m.ldi, a, imm, rfl, by rw [decodeFetched, show m.ldi = m.opcode .ldi from rfl, m.lookup_opcode hm]; rfl⟩

theorem FetchedRoundTrip.prn (a : Byte) : FetchedRoundTrip.Statement (.prn a) := fun m hm u _ =>
  ⟨m.prn, a, u, rfl, by rw [decodeFetched, show m.prn = m.opcode .prn from rfl, m.lookup_opcode hm]; rfl⟩

theorem FetchedRoundTrip.cmp (a b : Byte) : FetchedRoundTrip.Statement (.cmp a b) := fun m hm _ _ =>
  ⟨m.cmp, a, b, rfl, by rw [decodeFetched, show m.cmp = m.opcode .cmp from rfl, m.lookup_opcode hm]; rfl⟩

theorem FetchedRoundTrip.jmp (a : Byte) : FetchedRoundTrip.Statement (.jmp a) := fun m hm u _ =>
  ⟨m.jmp, a, u, rfl, by rw [decodeFetched, show m.jmp = m.opcode .jmp from rfl, m.lookup_opcode hm]; rfl⟩

theorem FetchedRoundTrip.jeq (a : Byte) : FetchedRoundTrip.Statement (.jeq a) := fun m hm u _ =>
  ⟨m.jeq, a, u, rfl, by rw [decodeFetched, show m.jeq = m.opcode .jeq from rfl, m.lookup_opcode hm]; rfl⟩

theorem FetchedRoundTrip.jne (a : Byte) : FetchedRoundTrip.Statement (.jne a) := fun m hm u _ =>
  ⟨m.jne, a, u, rfl, by rw [decodeFetched, show m.jne = m.opcode .jne from rfl, m.lookup_opcode hm]; rfl⟩

theorem FetchedRoundTrip.add (a b : Byte) : FetchedRoundTrip.Statement (.add a b) := fun m hm _ _ =>
  ⟨m.add, a, b, rfl, by rw [decodeFetched, show m.add = m.opcode .add from rfl, m.lookup_opcode hm]; rfl⟩

theorem FetchedRoundTrip.sub (a b : Byte) : FetchedRoundTrip.Statement (.sub a b) := fun m hm _ _ =>
  ⟨m.sub, a, b, rfl, by rw [decodeFetched, show m.sub = m.opcode .sub from rfl, m.lookup_opcode hm]; rfl⟩

end Sys2Proof.Laws
end

