-- ==== Sys2Proof/Laws/Run.lean ====
section
/-! SUPPORT. Runs of the core, one step at a time. -/

namespace Sys2Proof.Machine

theorem runsTo_zero {s t : State} : runsTo 0 s t ↔ s = t :=
  ⟨fun h => by injection h, fun h => congrArg _ h⟩

/-- One more step of a run of any core, for the answer its step gives. -/
theorem run_succ_eq (M : Host.Core) (k : Nat) (s : M.State) (t : M.State) :
    M.run (k + 1) s = .next t ↔ ∃ u, M.step s = .next u ∧ M.run k u = .next t := by
  simp only [Host.Core.run]
  cases h : M.step s <;> simp

theorem runsTo_succ {k : Nat} {s t : State} : runsTo (k + 1) s t ↔ ∃ u, step s = .next u ∧ runsTo k u t :=
  run_succ_eq core k s t

/-- What every step keeps holds along every run. -/
theorem runsTo_induction {P : State → State → Prop} (refl : ∀ s, P s s)
    (trans : ∀ s u t, step s = .next u → P u t → P s t) : ∀ (k : Nat) (s t : State), runsTo k s t → P s t
  | 0, s, _, h => runsTo_zero.1 h ▸ refl s
  | k + 1, _, _, h =>
    let ⟨_, hu, hk⟩ := runsTo_succ.1 h
    trans _ _ _ hu (runsTo_induction refl trans k _ _ hk)

/-- In HALTED no step is taken, so a run from there goes nowhere (R64). -/
theorem runsTo_halted {k : Nat} {s t : State} (hs : s.running = false) (h : runsTo k s t) : t = s := by
  cases k with
  | zero => exact (runsTo_zero.1 h).symm
  | succ k =>
    obtain ⟨u, hu, _⟩ := runsTo_succ.1 h
    simp [step_halted hs] at hu

/-- A step at 253 or below decodes the three bytes and runs the handler, or raises UnknownOpcode. -/
theorem step_inside {s : State} (hr : s.running = true) (hp : s.pc ≤ 253) :
    step s =
      match decodeFetched s.params.opcodeMap (s.byteAt s.pc) (s.byteAt (s.pc + 1)) (s.byteAt (s.pc + 2)) with
      | .unknownOpcode op => .next (raise (.unknownOpcode op s.pc)
          (emitTrace (s.byteAt s.pc) (s.byteAt (s.pc + 1)) (s.byteAt (s.pc + 2)) s))
      | .instr i => exec i (emitTrace (s.byteAt s.pc) (s.byteAt (s.pc + 1)) (s.byteAt (s.pc + 2)) s) := by
  simp only [step, hr, if_true, frontEnd, fetch_inside hp]
  cases decodeFetched s.params.opcodeMap (s.byteAt s.pc) (s.byteAt (s.pc + 1)) (s.byteAt (s.pc + 2)) <;> rfl

/-- A step above 253 raises MemoryFault with the lowest address out of range. -/
theorem step_outside {s : State} (hr : s.running = true) (hp : 253 < s.pc) :
    step s = .next (raise (.memoryFault (max 256 s.pc) s.pc) s) := by
  simp [step, hr, frontEnd, fetch_outside hp]

theorem step_decoded {s : State} {k : Mnemonic} (hr : s.running = true) (hp : s.pc ≤ 253)
    (hk : s.params.opcodeMap.lookup (s.byteAt s.pc) = some k) :
    step s = exec (k.withOperands (s.byteAt (s.pc + 1)) (s.byteAt (s.pc + 2)))
      (emitTrace (s.byteAt s.pc) (s.byteAt (s.pc + 1)) (s.byteAt (s.pc + 2)) s) := by
  rw [step_inside hr hp, decodeFetched, hk]

theorem step_unknown {s : State} (hr : s.running = true) (hp : s.pc ≤ 253)
    (hk : s.params.opcodeMap.lookup (s.byteAt s.pc) = none) :
    step s = .next (raise (.unknownOpcode (s.byteAt s.pc) s.pc)
      (emitTrace (s.byteAt s.pc) (s.byteAt (s.pc + 1)) (s.byteAt (s.pc + 2)) s)) := by
  rw [step_inside hr hp, decodeFetched, hk]

end Sys2Proof.Machine
end

