-- ==== Sys2Proof/Tests/Slice0.lean ====
section
/-! SUPPORT. Tests: the well-formedness checks, one word for each instruction, worked examples of the spec (95_test_vectors.md,
cited by their ids: transcribed from the source or derived by hand from the rules, never from this model), and for each
statement with hypotheses a state and operands that meet them. -/

namespace Sys2Proof.Tests

open Sys2Proof.Machine

/-! ## Helpers -/

/-- RUNNING after a load, with everything else as at reset. -/
def started : State := { State.reset with running := true, load := .loaded }

/-- RUNNING at `pc` with the three bytes there. -/
def placed (pc : Nat) (op a b : Byte) : State :=
  { started with pc := pc, mem := Memory.set (Memory.set (Memory.set [] pc op) (pc + 1) a) (pc + 2) b }

/-- The same under ARITH_POLICY = fault. -/
def strict (s : State) : State := { s with params := { s.params with arithPolicy := .fault } }

/-- The same with TRACE enabled. -/
def traced (s : State) : State := { s with params := { s.params with traceEnabled := true } }

/-- The outcome is a next state that passes `p`. -/
def goesTo (o : Host.Outcome State Fault Refusal) (p : State → Bool) : Bool :=
  match o with
  | .next t => p t
  | _ => false

/-! ## WellFormed: each check refuses an ill-formed term -/

theorem test_wf_accepts_r7 : (Instr.ldi 7 255).wf = true := by decide
theorem test_wf_refuses_ldi : (Instr.ldi 8 0).wf = false := by decide
theorem test_wf_refuses_prn : (Instr.prn 255).wf = false := by decide
theorem test_wf_refuses_cmp_a : (Instr.cmp 9 0).wf = false := by decide
theorem test_wf_refuses_cmp_b : (Instr.cmp 0 8).wf = false := by decide
theorem test_wf_refuses_jmp : (Instr.jmp 8).wf = false := by decide
theorem test_wf_refuses_jeq : (Instr.jeq 8).wf = false := by decide
theorem test_wf_refuses_jne : (Instr.jne 8).wf = false := by decide
theorem test_wf_refuses_add_b : (Instr.add 0 8).wf = false := by decide
theorem test_wf_refuses_sub_a : (Instr.sub 8 0).wf = false := by decide
theorem test_wf_refuses_shared_opcode : ({ defaultOpcodeMap with sub := 0xA0 } : OpcodeMap).wf = false := by decide

/-! ## Decode: each constructor's word, written out from the bit patterns of 30_encoding.md R45 and R49 -/

theorem test_decode_hlt : decodeFetched defaultOpcodeMap 0b00000001 0xFF 0xFF = .instr .hlt := by decide
theorem test_decode_ldi : decodeFetched defaultOpcodeMap 0b10000010 0b00000101 0b11001000 = .instr (.ldi 5 200) := by
  decide
theorem test_decode_prn : decodeFetched defaultOpcodeMap 0b01000111 0b00000011 0xFF = .instr (.prn 3) := by decide
theorem test_decode_cmp : decodeFetched defaultOpcodeMap 0b10100111 0b00000001 0b00000010 = .instr (.cmp 1 2) := by
  decide
theorem test_decode_jmp : decodeFetched defaultOpcodeMap 0b01010100 0b00000010 0xFF = .instr (.jmp 2) := by decide
theorem test_decode_jeq : decodeFetched defaultOpcodeMap 0b01010101 0b00000010 0xFF = .instr (.jeq 2) := by decide
theorem test_decode_jne : decodeFetched defaultOpcodeMap 0b01010110 0b00000011 0xFF = .instr (.jne 3) := by decide
theorem test_decode_add : decodeFetched defaultOpcodeMap 0b10100000 0b00000110 0b00000111 = .instr (.add 6 7) := by
  decide
theorem test_decode_sub : decodeFetched defaultOpcodeMap 0b10100001 0b00000110 0b00000111 = .instr (.sub 6 7) := by
  decide
/-- R51: 0x00 and MUL 0xA2 are unknown. -/
theorem test_decode_unknown : decodeFetched defaultOpcodeMap 0x00 0 0 = .unknownOpcode 0 ∧
    decodeFetched defaultOpcodeMap 0xA2 0 1 = .unknownOpcode 0xA2 := by decide
theorem test_decode_truncated : decodeBytes defaultOpcodeMap [0x82, 0x00] = .truncated := by decide
/-- The table word of LDI with its operand bits zero. -/
theorem test_decodeTableWord_ldi : decodeTableWord 8 0x82 = some (.ldi 0 0) := by decide
/-- The bits above nbits count as zero. -/
theorem test_decodeTableWord_masks : decodeTableWord 8 0x0582 = some (.ldi 0 0) := by decide
/-- P1's image (95_test_vectors.md). -/
theorem test_assemble_p1 : assemble defaultOpcodeMap [.ldi 0 8, .prn 0, .hlt] = [0x82, 0x00, 0x08, 0x47, 0x00, 0x01] := by
  decide

/-- P2, with its label, in the syntax of R55. -/
theorem test_assembly_p2 :
    (readAssembly (["LDI R0, 3", "LDI R1, 1", "LDI R2, 0", "LDI R3, LOOP", "LOOP: PRN R0", "SUB R0, R1", "CMP R0, R2",
      "JNE R3", "HLT"].map String.toList)).map (assemble defaultOpcodeMap) =
    some [0x82, 0x00, 0x03, 0x82, 0x01, 0x01, 0x82, 0x02, 0x00, 0x82, 0x03, 0x0C, 0x47, 0x00, 0xA1, 0x00, 0x01,
      0xA7, 0x00, 0x02, 0x56, 0x03, 0x01] := by decide
/-- R55: R8 names no register, and SP names R7; an immediate lies in 0..255. -/
theorem test_assembly_refused :
    readStatement (lineWords "PRN R8".toList) = none ∧ readStatement (lineWords "PRN SP".toList) = some (.instr (.prn 7)) ∧
    readStatement (lineWords "LDI R1, 0xFF".toList) = some (.instr (.ldi 1 255)) ∧
    readStatement (lineWords "LDI R1, 256".toList) = none := by decide

/-! ## One step of each instruction -/

/-- V1. -/
theorem test_ldi : goesTo (step (placed 0 0x82 0x00 0x08)) (fun t => t.reg 0 = 8 && t.pc = 3) = true := by decide
/-- V5b. -/
theorem test_ldi_index8 : goesTo (step (placed 0 0x82 0x08 0x05)) (fun t =>
    t.status = .fatal (.outOfRange 8 0) && !t.running && t.pc = 0 && t.x = State.reset.x) = true := by decide
/-- V4. -/
theorem test_prn : goesTo (step ((placed 3 0x47 0x00 0x99).setReg 0 8)) (fun t => t.out = [8] && t.pc = 5) = true := by
  decide
/-- V5c. -/
theorem test_prn_index255 : goesTo (step (placed 0 0x47 0xFF 0x00)) (fun t =>
    t.status = .fatal (.outOfRange 255 0) && t.out = []) = true := by decide
/-- V8a. -/
theorem test_cmp_unequal : goesTo (step (((placed 0 0xA7 0x00 0x01).setReg 1 255).setE true)) (fun t =>
    !t.E && t.pc = 3) = true := by decide
/-- V8b. -/
theorem test_cmp_reports_a_first : goesTo (step (placed 0 0xA7 0x09 0x0C)) (fun t =>
    t.status = .fatal (.outOfRange 9 0)) = true := by decide
/-- V9. -/
theorem test_jmp : goesTo (step ((placed 32 0x54 0x02 0x00).setReg 2 16)) (fun t => t.pc = 16) = true := by decide
/-- V16, its second step: a jump to 254 makes the next fetch fault. -/
theorem test_jmp_target_254 : goesTo (step { started with pc := 254 }) (fun t =>
    t.status = .fatal (.memoryFault 256 254)) = true := by decide
/-- V11 and V12. -/
theorem test_jeq : goesTo (step (((placed 9 0x55 0x02 0x00).setReg 2 19).setE true)) (fun t => t.pc = 19) = true ∧
    goesTo (step ((placed 9 0x55 0x02 0x00).setReg 2 19)) (fun t => t.pc = 11) = true := by decide
/-- V12a: the operand is checked although the branch is not taken. -/
theorem test_jeq_index8_untaken : goesTo (step (placed 9 0x55 0x08 0x00)) (fun t =>
    t.status = .fatal (.outOfRange 8 9)) = true := by decide
/-- V13 and V14. -/
theorem test_jne : goesTo (step (placed 12 0x56 0x03 0x00)) (fun t => t.pc = 0) = true ∧
    goesTo (step ((placed 12 0x56 0x03 0x00).setE true)) (fun t => t.pc = 14) = true := by decide
/-- V14a: JNE before any CMP is taken. -/
theorem test_jne_before_cmp : goesTo (step ((placed 0 0x56 0x01 0x00).setReg 1 6)) (fun t => t.pc = 6) = true := by decide
/-- V15. -/
theorem test_hlt : goesTo (step (placed 5 0x01 0xFF 0xFF)) (fun t =>
    !t.running && t.status = .halted && t.pc = 6 && t.exitStatus = some 0) = true := by decide
/-- V28: the last address at which an instruction executes. -/
theorem test_hlt_at_253 : goesTo (step (placed 253 0x01 0x00 0x00)) (fun t =>
    t.status = .halted && t.pc = 254) = true := by decide
/-- V19. -/
theorem test_add_wraps : goesTo (step (((placed 0 0xA0 0x00 0x01).setReg 0 200).setReg 1 100)) (fun t =>
    t.reg 0 = 44 && t.reg 1 = 100 && t.pc = 3) = true := by decide
/-- V20: the same register twice. -/
theorem test_add_same_register : goesTo (step ((placed 0 0xA0 0x00 0x00).setReg 0 128)) (fun t => t.reg 0 = 0) = true := by
  decide
/-- V22: a is the minuend, and the result wraps. -/
theorem test_sub_wraps : goesTo (step (((placed 0 0xA1 0x00 0x01).setReg 0 3).setReg 1 10)) (fun t =>
    t.reg 0 = 249 && t.reg 1 = 10 && t.pc = 3) = true := by decide
/-- V22 under ARITH_POLICY = fault. -/
theorem test_sub_faults : goesTo (step (strict (((placed 0 0xA1 0x00 0x01).setReg 0 3).setReg 1 10))) (fun t =>
    t.status = .fatal (.arithRange 0) && t.reg 0 = 3 && t.pc = 0) = true := by decide

/-! ## The engine, the load and the host -/

/-- V31 and V32: the fetch is checked first, and the lowest bad address is reported. -/
theorem test_fetch_faults : goesTo (step { started with pc := 256 }) (fun t =>
      t.status = .fatal (.memoryFault 256 256)) = true ∧
    goesTo (step { started with pc := 254, mem := [(254, 0xFF)] }) (fun t =>
      t.status = .fatal (.memoryFault 256 254)) = true := by decide
/-- V27 and S8: an unknown opcode halts with exit status 1. -/
theorem test_unknown_opcode : goesTo (step started) (fun t =>
    t.status = .fatal (.unknownOpcode 0 0) && !t.running && t.pc = 0 && t.exitStatus = some 1) = true := by decide
/-- V37. -/
theorem test_trace_record : goesTo (step (traced (placed 0 0x82 0x00 0x08))) (fun t =>
    t.trace = [⟨0, 0x82, 0x00, 0x08, Vector.replicate 8 0⟩] && t.reg 0 = 8) = true := by decide
/-- V34: 257 words. -/
theorem test_load_too_long : loadProgram (List.replicate 257 1) State.reset =
    .refused .loadTooLong { State.reset with load := .refused .loadTooLong } := by
  rw [loadProgram, if_pos ⟨rfl, rfl⟩, if_pos (by rw [List.length_replicate]; decide)]
/-- V35. -/
theorem test_load_bad_word : loadProgram [0x82, 0x00, 256] State.reset =
    .refused .loadBadWord { State.reset with load := .refused .loadBadWord } := by decide
/-- S7's image, loaded: RUNNING at pc 0, and the zero bytes are not listed. -/
theorem test_load_p1 : loadProgram [0x82, 0x00, 0x08, 0x47, 0x00, 0x01] State.reset =
    .accepted { started with mem := [(0, 0x82), (2, 0x08), (3, 0x47), (5, 0x01)] } := by decide
/-- S5 and S6: comment, blank and indented lines are skipped, and a trailing comment is stripped. -/
theorem test_program_file : parseFile ["# load 8 into R0".toList, "10000010 # LDI".toList, "".toList,
    "00001000".toList, "   10000010".toList] = some [0x82, 8] := by decide
/-- R68: 0 as 0 and 255 as 255, each on a line of its own; the line feed is the model's choice (log 24). -/
theorem test_console : consoleText [0, 255] = "0\n255\n".toList := by decide
/-- The host's placing of a word: the very next step from reset runs it (R73). -/
theorem test_withFetchWord_hlt : goesTo (step (State.reset.withFetchWord 8 0x01)) (fun t => t.status = .halted) = true := by
  decide
theorem test_withFetchWord_add : goesTo (step (State.reset.withFetchWord 24 0x0100A0)) (fun t => t.pc = 3) = true := by
  decide
theorem test_withFetchWord_high_pc : goesTo (step ({ State.reset with pc := 255 }.withFetchWord 24 0x070382))
    (fun t => t.reg 3 = 7) = true := by decide

/-! ## Witnesses: each statement's hypotheses can be met together -/

/-- A core in which `jmp` jumps to itself at 3 through R0 (P6 of 95_test_vectors.md). -/
def looping : State := (placed 3 0x54 0x00 0x00).setReg 0 3

/-- Registers that hold their own index, and the same held in reverse order. -/
def counted : State := { started with x := #v[0, 1, 2, 3, 4, 5, 6, 7] }
def countedBack : State := { started with x := #v[7, 6, 5, 4, 3, 2, 1, 0] }

theorem placed_fetches : fetches (placed 0 0x82 0x00 0x08) 0x82 0x00 0x08 :=
  ⟨by decide, by decide, by decide, by decide⟩

theorem witness_DecodeOfEncodeIsTheInstruction : defaultOpcodeMap.wf = true := by decide
theorem witness_EncodeOfDecodeIsTheBytes :
    decodeBytes defaultOpcodeMap [0x47, 0x03, 0x01] = .instr (.prn 3) [0x01] := by decide
theorem witness_AssembledInstructionsReadBack :
    defaultOpcodeMap.wf = true ∧ disassemble defaultOpcodeMap 2 [0x54, 0x02, 0x01] = some [.jmp 2, .hlt] := by decide
theorem witness_DispatchMatchesTheWholeByte :
    (∃ i, decodeFetched defaultOpcodeMap 0x47 0 0 = .instr i) ∧ ∀ k, defaultOpcodeMap.opcode k ≠ 0x00 :=
  ⟨⟨.prn 0, by decide⟩, fun k => by cases k <;> decide⟩
theorem witness_UnusedOperandBytesHaveNoEffect :
    defaultOpcodeMap.lookup 0x01 = some .hlt ∧ defaultOpcodeMap.lookup 0x47 = some .prn ∧
    defaultOpcodeMap.lookup 0x54 = some .jmp ∧ defaultOpcodeMap.lookup 0x55 = some .jeq ∧
    defaultOpcodeMap.lookup 0x56 = some .jne ∧
    ({ started with pc := 254 } : State).running = true ∧ ({ started with pc := 255 } : State).running = true := by decide
theorem witness_StepRunsTheDecodedInstruction :
    (placed 0 0x82 0x00 0x08).running = true ∧ fetches (placed 0 0x82 0x00 0x08) 0x82 0x00 0x08 ∧
    decodeFetched (placed 0 0x82 0x00 0x08).params.opcodeMap 0x82 0x00 0x08 = .instr (.ldi 0 8) :=
  ⟨by decide, placed_fetches, by decide⟩
/-- PRN at 253, the last address at which an instruction executes. -/
theorem witness_EncodedInstructionInMemoryRuns :
    (placed 253 0x47 0x03 0x00).running = true ∧ (placed 253 0x47 0x03 0x00).params.opcodeMap.wf = true ∧
    (placed 253 0x47 0x03 0x00).pc ≤ 253 ∧
    ∀ (k : Nat) (h : k < (encodeWith (placed 253 0x47 0x03 0x00).params.opcodeMap (.prn 3)).length),
      (placed 253 0x47 0x03 0x00).byteAt (253 + k) =
        (encodeWith (placed 253 0x47 0x03 0x00).params.opcodeMap (.prn 3))[k] := by decide
theorem witness_HaltedCoreTakesNoStep :
    (halt started).running = false ∧ runsTo 0 (halt started) (halt started) ∧ (halt started).load ≠ .awaiting :=
  ⟨rfl, rfl, by decide⟩
theorem witness_EngineStateMachine_halts : (placed 253 0x01 0 0).running = true ∧ fetches (placed 253 0x01 0 0) 0x01 0 0 ∧
    (placed 253 0x01 0 0).params.opcodeMap.lookup 0x01 = some .hlt ∧ started.status = .none ∧
    ∃ t, step started = .next t ∧ t.status = .fatal (.unknownOpcode 0 0) :=
  ⟨by decide, ⟨by decide, by decide, by decide, by decide⟩, by decide, rfl, _, rfl, rfl⟩
theorem witness_EngineStateMachine :
    (∃ t, loadProgram [1] State.reset = .accepted t) ∧ started.load ≠ .awaiting ∧
    (∃ t, step (placed 0 0x01 0 0) = .next t ∧ t.running = false ∧ t.status = .halted) ∧
    (∃ t c, step started = .next t ∧ t.running = false ∧ t.status = .fatal c) :=
  ⟨⟨_, rfl⟩, by decide, ⟨_, rfl, rfl, rfl⟩, ⟨_, .unknownOpcode 0 0, rfl, rfl, rfl⟩⟩
theorem witness_UnknownOpcodeHaltsTheEngine :
    started.running = true ∧ started.load = .loaded ∧ fetches started 0 0 0 ∧
    started.params.opcodeMap.lookup 0 = none :=
  ⟨by decide, by decide, ⟨by decide, by decide, by decide, by decide⟩, by decide⟩
theorem witness_OutOfRangeOperandIsRaised :
    (∃ r ∈ (Instr.cmp 7 8).regOperands, 8 ≤ r.toNat) ∧ (Instr.cmp 7 7).wf = true ∧
    ∃ t, exec (.cmp 7 7) (raise (.outOfRange 8 0) started) = .next t ∧ t.status = .fatal (.outOfRange 8 0) :=
  ⟨by decide, by decide, _, rfl, rfl⟩

/-! The clauses of FatalConditionPriority: the boundary of each. -/
theorem witness_FatalConditionPriority_fetch : ({ started with pc := 254 } : State).running = true ∧
    253 < ({ started with pc := 254 } : State).pc := by decide
theorem witness_FatalConditionPriority_operands :
    fetches (placed 253 0xA7 0x08 0x08) 0xA7 0x08 0x08 ∧
    (placed 253 0xA7 0x08 0x08).params.opcodeMap.lookup 0xA7 = some .cmp ∧ (8 : Nat) ≤ (0x08 : Byte).toNat ∧
    fetches (placed 0 0xA7 0x07 0x08) 0xA7 0x07 0x08 ∧ (0x07 : Byte).toNat < 8 :=
  ⟨⟨by decide, by decide, by decide, by decide⟩, by decide, by decide, ⟨by decide, by decide, by decide, by decide⟩,
    by decide⟩
theorem witness_FatalConditionPriority_arith :
    fetches (strict ((placed 0 0xA0 0x00 0x01).setReg 0 255)) 0xA0 0x00 0x01 ∧
    (strict (((placed 0 0xA0 0x00 0x01).setReg 0 255).setReg 1 1)).params.arithPolicy = .fault ∧
    255 < ((strict (((placed 0 0xA0 0x00 0x01).setReg 0 255).setReg 1 1)).reg 0).toNat +
      ((strict (((placed 0 0xA0 0x00 0x01).setReg 0 255).setReg 1 1)).reg 1).toNat ∧
    fetches (strict ((placed 0 0xA1 0x00 0x01).setReg 1 1)) 0xA1 0x00 0x01 ∧
    ((strict ((placed 0 0xA1 0x00 0x01).setReg 1 1)).reg 0).toNat <
      ((strict ((placed 0 0xA1 0x00 0x01).setReg 1 1)).reg 1).toNat :=
  ⟨⟨by decide, by decide, by decide, by decide⟩, by decide, by decide, ⟨by decide, by decide, by decide, by decide⟩,
    by decide⟩

/-! A step that ends in each condition the machine can raise, for FatalConditionIsPrecise and FatalConditionHasItsCause. -/
theorem witness_Fatal_unknownOpcode : started.status = .none ∧
    ∃ t, step started = .next t ∧ t.status = .fatal (.unknownOpcode 0 0) := ⟨rfl, _, rfl, rfl⟩
theorem witness_Fatal_memoryFault : ∃ t, step { started with pc := 255 } = .next t ∧
    t.status = .fatal (.memoryFault 256 255) := ⟨_, rfl, by decide⟩
theorem witness_Fatal_outOfRange : ∃ t, step (placed 0 0xA0 0x07 0x08) = .next t ∧
    t.status = .fatal (.outOfRange 8 0) := ⟨_, rfl, by decide⟩
theorem witness_Fatal_arithRange : ∃ t, step (strict ((placed 0 0xA1 0x00 0x01).setReg 1 1)) = .next t ∧
    t.status = .fatal (.arithRange 0) := ⟨_, rfl, by decide⟩
theorem witness_Fatal_arithRange_add : ∃ t, step (strict (((placed 0 0xA0 0x00 0x01).setReg 0 255).setReg 1 1)) = .next t ∧
    t.status = .fatal (.arithRange 0) := ⟨_, rfl, by decide⟩

theorem witness_OneTraceRecordPerFetch :
    (traced started).running = true ∧ (traced started).params.traceEnabled = true ∧ fetches (traced started) 0 0 0 ∧
    253 < (traced { started with pc := 254 }).pc ∧ started.params.traceEnabled = false :=
  ⟨by decide, by decide, ⟨by decide, by decide, by decide, by decide⟩, by decide, by decide⟩
/-- The boundary operands of every statement about one instruction: 7 names a register and 8 does not. -/
theorem witness_operand_boundary : (7 : Byte).toNat < 8 ∧ 8 ≤ (8 : Byte).toNat := by decide
theorem witness_LoadImmediateRule :
    (placed 0 0x82 0x00 0x08).running = true ∧ (placed 0 0x82 0x00 0x08).params.opcodeMap = defaultOpcodeMap ∧
    fetches (placed 0 0x82 0x00 0x08) 0x82 0x00 0x08 ∧ 253 < ({ started with pc := 254 } : State).pc :=
  ⟨by decide, by decide, placed_fetches, by decide⟩
theorem witness_CompareEffect : counted.reg 3 = counted.reg 3 ∧ counted.reg 3 ≠ counted.reg 4 := by decide
theorem witness_JumpIfEqualEffect : (started.setE true).E = true ∧ started.E = false := by decide
theorem witness_AddEffect : started.params.arithPolicy = .wrap ∧ (7 : Byte).toNat < 8 := by decide
theorem witness_ArithmeticUnderTheFaultPolicy :
    (strict counted).params.arithPolicy = .fault ∧
    ((strict (counted.setReg 0 254)).reg 0).toNat + ((strict (counted.setReg 0 254)).reg 1).toNat ≤ 255 ∧
    255 < ((strict (counted.setReg 0 255)).reg 0).toNat + ((strict (counted.setReg 0 255)).reg 1).toNat ∧
    ((strict counted).reg 1).toNat ≤ ((strict counted).reg 1).toNat ∧
    ((strict counted).reg 1).toNat < ((strict counted).reg 2).toNat := by decide
theorem witness_AddingZeroChangesOnlyThePc : (5 : Byte).toNat < 8 ∧ counted.reg 0 = 0 ∧ counted.reg 5 = 5 := by decide
theorem witness_PcAdvancesByTheLength :
    (Instr.jeq 2).wf = true ∧ started.params.arithPolicy ≠ .fault ∧ (∀ a, Instr.jeq 2 ≠ .jmp a) ∧
    (∀ a, Instr.jeq 2 = .jeq a → started.E = false) ∧ (∀ a, Instr.jeq 2 = .jne a → started.E = true) :=
  ⟨by decide, by decide, by simp, fun _ _ => rfl, by simp⟩
/-- ADD under ARITH_POLICY = fault, at the top of the range: 255 + 0. -/
theorem witness_PcAdvancesByTheLength_fault :
    (Instr.add 0 1).wf = true ∧ (strict (started.setReg 0 255)).params.arithPolicy = .fault ∧
    ∀ (a b : Byte) (ha : a.toNat < 8) (hb : b.toNat < 8),
      (Instr.add 0 1 = .add a b → ((strict (started.setReg 0 255)).reg ⟨a.toNat, ha⟩).toNat +
        ((strict (started.setReg 0 255)).reg ⟨b.toNat, hb⟩).toNat ≤ 255) ∧
      (Instr.add 0 1 = .sub a b → ((strict (started.setReg 0 255)).reg ⟨b.toNat, hb⟩).toNat ≤
        ((strict (started.setReg 0 255)).reg ⟨a.toNat, ha⟩).toNat) :=
  ⟨by decide, by decide, fun a b ha hb => ⟨fun h => by injection h with h h'; subst h h'; revert ha hb; decide, by simp⟩⟩
theorem witness_OnlyTheDestinationRegisterChanges :
    ∃ t, exec (.ldi 7 9) started = .next t ∧ t.reg 7 ≠ started.reg 7 := ⟨_, rfl, by decide⟩
theorem witness_OnlyCompareWritesTheEqualFlag :
    (∃ t, step (placed 0 0xA7 0x02 0x02) = .next t ∧ t.E ≠ (placed 0 0xA7 0x02 0x02).E) ∧
    (∃ t, exec (.add 0 1) counted = .next t) :=
  ⟨⟨_, rfl, by decide⟩, _, rfl⟩
theorem witness_RegistersAreInterchangeable :
    Function.Bijective (fun r : RegIx => 7 - r) ∧ renamedState (fun r => 7 - r) counted countedBack :=
  ⟨by decide, by decide, rfl⟩
theorem witness_MemReadAfterMemWrite : Memory.wf [(0, 1), (255, 2)] = true := by decide
theorem witness_EqualMemoriesAreEqualData :
    Memory.wf [(0, 1), (255, 2)] = true ∧ Memory.wf (Memory.set (Memory.set [] 255 2) 0 1) = true ∧
    ∀ addr, addr ≤ 255 → Memory.get [(0, 1), (255, 2)] addr = Memory.get (Memory.set (Memory.set [] 255 2) 0 1) addr :=
  ⟨by decide, by decide, fun _ _ => rfl⟩
theorem witness_MemoryIsConstantAlongARun : runsTo 1 looping looping := rfl
theorem witness_OutputOnlyGrows :
    ∃ t, step (placed 0 0x47 0x00 0x00) = .next t ∧ t.out ≠ (placed 0 0x47 0x00 0x00).out := ⟨_, rfl, by decide⟩
/-- PRN of the last register at the last address a fetch can succeed at. -/
theorem witness_OutputOnlyGrows_prn : (7 : Byte).toNat < 8 ∧ (placed 253 0x47 0x07 0x00).running = true ∧
    fetches (placed 253 0x47 0x07 0x00) 0x47 7 0 ∧ (placed 253 0x47 0x07 0x00).params.opcodeMap.lookup 0x47 = some .prn :=
  ⟨by decide, by decide, ⟨by decide, by decide, by decide, by decide⟩, by decide⟩
/-- PRN of the first operand byte that names no register. -/
theorem witness_OutputOnlyGrows_fatal : (placed 0 0x47 0x08 0x00).status = .none ∧
    ∃ t, step (placed 0 0x47 0x08 0x00) = .next t ∧ t.status = .fatal (.outOfRange 8 0) :=
  ⟨by decide, _, rfl, by decide⟩
/-- A load of exactly 256 words of the largest value (V36). -/
theorem witness_LoadPlacesTheImage :
    State.reset.load = .awaiting ∧ State.reset.running = false ∧ Memory.wf State.reset.mem = true ∧
    (List.replicate 256 255).length ≤ 256 ∧ ∀ w ∈ List.replicate 256 255, w ≤ 255 :=
  ⟨rfl, rfl, rfl, List.length_replicate.le, fun _ h => (List.eq_of_mem_replicate h).le⟩
theorem witness_PrintedAssemblyReadsBack : (Instr.ldi 7 255).wf = true := by decide
theorem witness_RefusedLoadNeverRuns :
    State.reset.load = .awaiting ∧ State.reset.running = false ∧ 256 < (List.replicate 257 0).length ∧
    ([256] : List Nat).length ≤ 256 ∧ ∃ w ∈ ([256] : List Nat), 255 < w :=
  ⟨rfl, rfl, by rw [List.length_replicate]; decide, by decide, by decide⟩
theorem witness_LoadIsAcceptedOnce :
    started.load ≠ .awaiting ∧ (∃ t, loadProgram [1] State.reset = .accepted t ∧ ∃ u, runsTo 1 t u) ∧
    State.reset.load = .awaiting ∧ State.reset.running = false ∧ (List.replicate 256 255).length ≤ 256 ∧
    ∀ w ∈ List.replicate 256 255, w ≤ 255 :=
  ⟨by decide, ⟨_, rfl, _, rfl⟩, rfl, rfl, List.length_replicate.le, fun _ h => (List.eq_of_mem_replicate h).le⟩
theorem witness_MemoryHoldsTheLoadedImage :
    ∃ t u, loadProgram [0x82, 0x00, 0x08] (State.resetWith defaultParams) = .accepted t ∧ runsTo 1 t u :=
  ⟨_, _, rfl, rfl⟩
theorem witness_CommentsDoNotChangeTheProgram :
    (∀ c, "# note".toList.head? = some c → c ≠ '0' ∧ c ≠ '1') ∧ (∀ c, ([] : List Char).head? = some c → c ≠ '0' ∧ c ≠ '1') :=
  ⟨by simp, by simp⟩
theorem witness_LoadKeepsTheInvariant : State.reset.Inv :=
  ⟨rfl, by decide, by decide, fun c h => by simp [State.reset, State.resetWith] at h, fun _ => rfl, fun _ => rfl⟩
/-- The self-jump meets the invariant and steps. -/
theorem witness_StepKeepsTheInvariant : looping.Inv ∧ step looping = .next looping :=
  ⟨⟨by decide, by decide, by decide, fun c h => by simp [looping, placed, started, State.reset, State.resetWith] at h,
    fun h => absurd rfl h, fun _ => rfl⟩, rfl⟩
/-- A core that ended fatally, at the top of memory, meets the invariant; so does one that ended normally. -/
theorem witness_EndOfARun :
    (raise (.memoryFault 256 254) { started with pc := 254 }).Inv ∧ (halt started).Inv ∧ started.load = .loaded :=
  ⟨⟨by decide, by decide, by decide,
      fun c h => by obtain rfl : Condition.memoryFault 256 254 = c := by simpa using h
                    exact ⟨rfl, rfl, by decide⟩,
      fun h => absurd rfl h, fun _ => rfl⟩,
    ⟨by decide, by decide, by decide, fun c h => by simp at h, fun h => absurd rfl h, fun _ => rfl⟩, rfl⟩
theorem witness_SelfJumpRunsForever :
    looping.running = true ∧ fetches looping looping.params.opcodeMap.jmp 0 0 ∧ looping.params.opcodeMap.wf = true ∧
    (looping.reg 0).toNat = looping.pc :=
  ⟨by decide, ⟨by decide, by decide, by decide, by decide⟩, by decide, by decide⟩
theorem witness_TraceDoesNotAffectTheRun :
    looping.untraced = (traced looping).untraced ∧ runsTo 1 looping looping := ⟨rfl, rfl⟩
theorem witness_FaultPolicyRunIsAWrapPolicyRun :
    (strict looping).params.arithPolicy = .fault ∧ runsTo 1 (strict looping) (strict looping) ∧
    ∀ p, (strict looping).status ≠ .fatal (.arithRange p) :=
  ⟨rfl, rfl, fun _ h => by simp [strict, looping, placed, started, State.reset, State.resetWith] at h⟩

end Sys2Proof.Tests
end

section
/-! Renaming the registers (R13, R15): every operation a handler is built from takes renamed states to renamed states, and so
does every handler. -/

namespace Sys2Proof.Machine

/-! ## Operand bytes -/

theorem renameByte_of_regIndex_some {f : RegIx → RegIx} {a : Byte} {r : RegIx} (ha : regIndex a = some r) :
    renameByte f a = BitVec.ofNat 8 (f r).val := by
  simp [renameByte, ha]

theorem renameByte_of_regIndex_none {f : RegIx → RegIx} {a : Byte} (ha : regIndex a = none) : renameByte f a = a := by
  simp [renameByte, ha]

/-! ## Operations on renamed states -/

section

variable {f : RegIx → RegIx} {s t : State}

theorem renamedState.reg_eq (h : renamedState f s t) (r : RegIx) : t.reg (f r) = s.reg r := h.1 r

theorem renamedState.pc_eq (h : renamedState f s t) : t.pc = s.pc := by rw [h.2]

theorem renamedState.E_eq (h : renamedState f s t) : t.E = s.E := by rw [h.2]

theorem renamedState.params_eq (h : renamedState f s t) : t.params = s.params := by rw [h.2]

/-- An update that neither reads nor writes the registers commutes with renaming them. -/
theorem renamedState.map (h : renamedState f s t) (g : State → State)
    (hg : ∀ (u : State) (x : Vector Byte 8), g { u with x := x } = { g u with x := x }) :
    renamedState f (g s) (g t) := by
  have hs : (g s).x = s.x := (congrArg State.x (hg s s.x) :)
  have ht : g t = { g s with x := t.x } := (congrArg g h.2).trans (hg s t.x)
  refine ⟨fun r => ?_, by rw [ht]⟩
  simpa only [State.reg, hs, ht] using h.1 r

/-- Only this update needs the renaming to keep different registers apart. -/
theorem renamedState.setReg (hf : Function.Injective f) (h : renamedState f s t) (r : RegIx) (v : Byte) :
    renamedState f (s.setReg r v) (t.setReg (f r) v) := by
  refine ⟨fun q => ?_, by rw [h.2]; rfl⟩
  simp only [reg_setReg, hf.eq_iff, h.reg_eq]

theorem renamedState.withReg (h : renamedState f s t) (a : Byte) {k k' : RegIx → State}
    (hk : ∀ r, renamedState f (k r) (k' (f r))) :
    renamedState f (withReg a s k) (withReg (renameByte f a) t k') := by
  cases ha : regIndex a with
  | some r =>
    simpa only [Machine.withReg, renameByte_of_regIndex_some ha, regIndex_ofNat, ha] using hk r
  | none =>
    simpa only [Machine.withReg, renameByte_of_regIndex_none ha, ha, h.pc_eq] using
      h.map (raise (.outOfRange a s.pc)) fun _ _ => rfl

theorem renamedState.withRegs (h : renamedState f s t) (a b : Byte) {k k' : RegIx → RegIx → State}
    (hk : ∀ ra rb, renamedState f (k ra rb) (k' (f ra) (f rb))) :
    renamedState f (withRegs a b s k) (withRegs (renameByte f a) (renameByte f b) t k') :=
  h.withReg a fun ra => h.withReg b fun rb => hk ra rb

/-! ## Handlers on renamed states -/

theorem renamedState.branch (h : renamedState f s t) (taken : Bool) (a : Byte) :
    renamedState f (branch taken a s) (branch taken (renameByte f a) t) := by
  refine h.withReg a fun r => ?_
  rw [h.reg_eq]
  exact h.map (fun u => if taken then u.jumpTo (s.reg r) else u.advance 2) fun _ _ => by cases taken <;> rfl

theorem renamedState.aluRegisters (hf : Function.Injective f) (h : renamedState f s t) (op : AluOp) (a b : Byte) :
    renamedState f (aluRegisters op a b s) (aluRegisters op (renameByte f a) (renameByte f b) t) := by
  refine h.withRegs a b fun ra rb => ?_
  simp only [h.reg_eq, h.params_eq, h.pc_eq]
  cases alu s.params.arithPolicy op (s.reg ra) (s.reg rb) with
  | some v => exact (h.setReg hf ra v).map (·.advance 3) fun _ _ => rfl
  | none => exact h.map (raise (.arithRange s.pc)) fun _ _ => rfl

theorem renamedState.exec (hf : Function.Injective f) (h : renamedState f s t) (i : Instr) :
    ∃ s' t', exec i s = .next s' ∧ exec (renameInstr f i) t = .next t' ∧ renamedState f s' t' := by
  cases i with
  | hlt => exact ⟨_, _, rfl, rfl, h.map (fun u => (halt u).advance 1) fun _ _ => rfl⟩
  | ldi a imm =>
    exact ⟨_, _, rfl, rfl, h.withReg a fun r => (h.setReg hf r imm).map (·.advance 3) fun _ _ => rfl⟩
  | prn a =>
    refine ⟨_, _, rfl, rfl, h.withReg a fun r => ?_⟩
    rw [h.reg_eq]
    exact h.map (fun u => (u.emit (s.reg r)).advance 2) fun _ _ => rfl
  | cmp a b =>
    refine ⟨_, _, rfl, rfl, h.withRegs a b fun ra rb => ?_⟩
    rw [h.reg_eq, h.reg_eq]
    exact h.map (fun u => (u.setE (equalFlag (s.reg ra) (s.reg rb))).advance 3) fun _ _ => rfl
  | jmp a => exact ⟨_, _, rfl, rfl, h.branch true a⟩
  | jeq a => exact ⟨_, _, rfl, rfl, h.E_eq ▸ h.branch t.E a⟩
  | jne a => exact ⟨_, _, rfl, rfl, h.E_eq ▸ h.branch (!t.E) a⟩
  | add a b => exact ⟨_, _, rfl, rfl, h.aluRegisters hf .add a b⟩
  | sub a b => exact ⟨_, _, rfl, rfl, h.aluRegisters hf .sub a b⟩

end

/-- Settles O37: every handler takes renamed states to renamed states; of the permutation only injectivity is used. -/
theorem registersAreInterchangeable : Obligations.RegistersAreInterchangeable :=
  fun _ hf i _ _ h => h.exec hf.injective i

end Sys2Proof.Machine
end

section
/-! What the decoder answers, in terms of the dispatcher's lookup (R50), and the length of an encoding (R42). -/

namespace Sys2Proof

/-! ## The decoder -/

section

variable {m : OpcodeMap} {op : Byte}

theorem decodeFetched_of_lookup {k : Mnemonic} (h : m.lookup op = some k) (a b : Byte) :
    decodeFetched m op a b = .instr (k.withOperands a b) := by
  simp [decodeFetched, h]

theorem decodeFetched_of_lookup_none (h : m.lookup op = none) (a b : Byte) :
    decodeFetched m op a b = .unknownOpcode op := by
  simp [decodeFetched, h]

/-- The decoder answers an instruction exactly where the lookup finds an entry, and it is that entry's. -/
theorem decodeFetched_eq_instr {a b : Byte} {i : Instr} :
    decodeFetched m op a b = .instr i ↔ ∃ k, m.lookup op = some k ∧ k.withOperands a b = i := by
  cases h : m.lookup op with
  | none => simp [decodeFetched_of_lookup_none h]
  | some k => simp [decodeFetched_of_lookup h]

theorem decodeFetched_eq_unknownOpcode {a b : Byte} :
    decodeFetched m op a b = .unknownOpcode op ↔ m.lookup op = none := by
  cases h : m.lookup op with
  | none => simp [decodeFetched_of_lookup_none h]
  | some k => simp [decodeFetched_of_lookup h]

/-- Every byte of the map is found, also where the map repeats it. -/
theorem OpcodeMap.exists_lookup_iff : (∃ k, m.lookup op = some k) ↔ ∃ k, m.opcode k = op := by
  rw [← Option.ne_none_iff_exists', Ne, OpcodeMap.lookup_eq_none]
  simp

/-- Settles O2: the decoder follows the lookup, which finds an entry exactly for the bytes of the map. -/
theorem dispatchMatchesTheWholeByte : Obligations.DispatchMatchesTheWholeByte := by
  intro m op a b
  refine ⟨?decodes, ?unknown, ?entry⟩
  case decodes =>
    rw [← OpcodeMap.exists_lookup_iff]
    simp only [decodeFetched_eq_instr]
    exact ⟨fun ⟨_, k, hk, _⟩ => ⟨k, hk⟩, fun ⟨k, hk⟩ => ⟨_, k, hk, rfl⟩⟩
  case unknown => exact decodeFetched_eq_unknownOpcode.trans OpcodeMap.lookup_eq_none
  case entry =>
    intro i hi
    obtain ⟨k, hk, rfl⟩ := decodeFetched_eq_instr.1 hi
    rw [Instr.mnemonic_withOperands]
    exact ⟨OpcodeMap.opcode_of_lookup hk, rfl⟩

/-! ## Operand bytes that are not used -/

theorem decodeFetched_congr_withOperands {k : Mnemonic} {a b a' b' : Byte} (hk : m.lookup op = some k)
    (h : k.withOperands a b = k.withOperands a' b') : decodeFetched m op a b = decodeFetched m op a' b' := by
  rw [decodeFetched_of_lookup hk, decodeFetched_of_lookup hk, h]

end

/-- Settles O9: the instruction of these entries has no place for the byte, and from pc 254 or 255 the fetch first leaves
memory at address 256. -/
theorem unusedOperandBytesHaveNoEffect : Obligations.UnusedOperandBytesHaveNoEffect := by
  refine ⟨fun m op a b a' b' => ⟨fun hk => decodeFetched_congr_withOperands hk rfl, ?oneOperand⟩, ?fetch⟩
  case oneOperand =>
    rintro (hk | hk | hk | hk) <;> exact decodeFetched_congr_withOperands hk rfl
  case fetch =>
    intro s hr hp
    have hmax : max 256 s.pc = 256 := by omega
    rw [Machine.step_outside hr (by omega), hmax]

/-! ## The length of an encoding -/

theorem Instr.length_operandBytes (i : Instr) : i.operandBytes.length = i.mnemonic.operandCount := by
  cases i <;> rfl

theorem Mnemonic.operandCount_le_two (k : Mnemonic) : k.operandCount ≤ 2 := by
  cases k <;> decide

theorem length_encodeWith (m : OpcodeMap) (i : Instr) : (encodeWith m i).length = 1 + i.mnemonic.operandCount := by
  rw [encodeWith, List.length_cons, Instr.length_operandBytes, Nat.add_comm]

/-- Settles O4: an operand count is at most 2. -/
theorem instructionLength : Obligations.InstructionLength := by
  intro m i
  refine ⟨rfl, i.length_operandBytes, length_encodeWith m i, ?_⟩
  have hle := i.mnemonic.operandCount_le_two
  simp only [length_encodeWith, List.mem_cons, List.not_mem_nil, or_false]
  omega

end Sys2Proof
end

section
/-! Data movement (spec 41_data_output.md): the LDI rule, in full (R67). -/

namespace Sys2Proof.Machine

/-- The step on fetched bytes whose opcode the dispatcher finds: the handler runs after the trace record (R59). -/
theorem step_of_fetches {s : State} {op a b : Byte} {k : Mnemonic} (hr : s.running = true) (hf : fetches s op a b)
    (hk : s.params.opcodeMap.lookup op = some k) :
    step s = exec (k.withOperands a b) (emitTrace op a b s) := by
  obtain ⟨hp, rfl, rfl, rfl⟩ := hf
  exact step_decoded hr hp hk

theorem exec_ldi_of_ge {a : Byte} (ha : 8 ≤ a.toNat) (imm : Byte) (s : State) :
    exec (.ldi a imm) s = .next (raise (.outOfRange a s.pc) s) := by
  simp only [exec, execLdi, withReg_of_ge ha]

/-- Settles O22: the effect and the frame are those of the one register update and the pc's advance, and a running core
steps by the fetched bytes, or faults above 253. -/
theorem loadImmediateRule : Obligations.LoadImmediateRule := by
  intro s a imm
  refine ⟨?effect, fun ha => exec_ldi_of_ge ha imm s, rfl, rfl, ?inside, step_outside⟩
  case effect =>
    intro ha
    have hother : sameRegsBut ⟨a.toNat, ha⟩ s ((s.setReg ⟨a.toNat, ha⟩ imm).advance 3) := by
      intro r hr
      rw [State.advance_reg, reg_setReg_of_ne s _ r imm hr]
    exact ⟨_, exec_ldi ha imm, reg_setReg_same s _ imm, hother, rfl, rfl, rfl, fun _ => rfl,
      ⟨rfl, rfl⟩, ⟨rfl, rfl, rfl⟩⟩
  case inside =>
    intro hr hm hf
    have hk : s.params.opcodeMap.lookup 0x82 = some .ldi := by
      rw [hm]
      exact OpcodeMap.lookup_opcode defaultOpcodeMap_wf .ldi
    exact step_of_fetches hr hf hk

end Sys2Proof.Machine
end

section
/-! Register operands that name no register (R16, R85): a handler either raises OutOfRange for one of them, or its instruction
is well-formed. -/

namespace Sys2Proof

theorem Instr.wf_iff {i : Instr} : i.wf = true ↔ ∀ r ∈ i.regOperands, r.toNat < 8 := by
  simp [Instr.wf, namesRegister]

namespace Machine

theorem regOperands_aluInstr (op : AluOp) (a b : Byte) : (aluInstr op a b).regOperands = [a, b] := by
  cases op <;> rfl

section

variable {i : Instr} {s t : State}

/-- Every effect but OutOfRange comes with the proof that the register operands name registers. -/
theorem Effect.outOfRange_or_wf (h : Effect i s t) :
    (∃ r ∈ i.regOperands, 8 ≤ r.toNat ∧ t = raise (.outOfRange r s.pc) s) ∨ i.wf = true := by
  cases h with
  | outOfRange r hr h8 => exact .inl ⟨r, hr, h8, rfl⟩
  | halts hi => exact .inr (by simp [hi, Instr.wf_iff, Instr.regOperands])
  | loads a imm ha hi => exact .inr (by simp [hi, Instr.wf_iff, Instr.regOperands, ha])
  | prints a ha hi => exact .inr (by simp [hi, Instr.wf_iff, Instr.regOperands, ha])
  | compares a b ha hb hi => exact .inr (by simp [hi, Instr.wf_iff, Instr.regOperands, ha, hb])
  | jumps a ha hi =>
    refine .inr ?_
    obtain rfl | ⟨rfl, -⟩ | ⟨rfl, -⟩ := hi <;> simp [Instr.wf_iff, Instr.regOperands, ha]
  | fallsThrough a ha hi =>
    refine .inr ?_
    obtain ⟨rfl, -⟩ | ⟨rfl, -⟩ := hi <;> simp [Instr.wf_iff, Instr.regOperands, ha]
  | computes op a b v ha hb hi => exact .inr (by simp [hi, Instr.wf_iff, regOperands_aluInstr, ha, hb])
  | arithRange op a b ha hb hi => exact .inr (by simp [hi, Instr.wf_iff, regOperands_aluInstr, ha, hb])

/-- What a handler can make of the status (R23): an OutOfRange it leaves there is its own raise, or was there before. -/
theorem Effect.status_of_outOfRange {r : Byte} {p : Nat} (h : Effect i s t) (ht : t.status = .fatal (.outOfRange r p)) :
    s.status = .fatal (.outOfRange r p) ∨ r ∈ i.regOperands ∧ 8 ≤ r.toNat := by
  cases h with
  | outOfRange r' hr h8 =>
    obtain ⟨rfl, -⟩ : r' = r ∧ s.pc = p := by simpa using ht
    exact .inr ⟨hr, h8⟩
  | halts => simp at ht
  | arithRange => simp at ht
  | loads | prints | compares | jumps | fallsThrough | computes => exact .inl (by simpa using ht)

end

/-- Settles O16: a handler always answers, and its effect is a raise for an operand of 8 or more unless there is none. -/
theorem outOfRangeOperandIsRaised : Obligations.OutOfRangeOperandIsRaised := by
  intro i s
  refine ⟨?raised, ?notRaised⟩
  case raised =>
    rintro ⟨r, hr, h8⟩
    obtain ⟨t, ht⟩ := exec_total i s
    obtain ⟨q, hq, hq8, rfl⟩ | hwf := (exec_effect ht).outOfRange_or_wf
    · exact ⟨q, hq, hq8, ht⟩
    · exact absurd (Instr.wf_iff.1 hwf r hr) (Nat.not_lt.2 h8)
  case notRaised =>
    intro hwf t r p ht hstatus
    obtain hs | ⟨hr, h8⟩ := (exec_effect ht).status_of_outOfRange hstatus
    · exact hs
    · exact absurd (Instr.wf_iff.1 hwf r hr) (Nat.not_lt.2 h8)

end Machine
end Sys2Proof
end

section
/-! An unknown opcode (R83): the step that meets one, and the exit status of a run that ended fatally (R90). -/

namespace Sys2Proof.Machine

variable {s : State}

/-- The step on fetched bytes whose opcode the dispatcher does not find. -/
theorem step_of_fetches_unknown {op a b : Byte} (hr : s.running = true) (hf : fetches s op a b)
    (hk : s.params.opcodeMap.lookup op = none) :
    step s = .next (raise (.unknownOpcode op s.pc) (emitTrace op a b s)) := by
  obtain ⟨hp, rfl, rfl, rfl⟩ := hf
  exact step_unknown hr hp hk

/-- Whatever the load phase is: a refused load exits with 1 as well. -/
@[simp] theorem exitStatus_raise (c : Condition) (s : State) : (raise c s).exitStatus = some 1 := by
  cases h : s.load <;> simp [State.exitStatus, h]

/-- Settles O15: the step is one raise on the state after the trace record, and neither touches what the claim lists. -/
theorem unknownOpcodeHaltsTheEngine : Obligations.UnknownOpcodeHaltsTheEngine := by
  intro s op a b hr _ hf hk
  refine ⟨_, step_of_fetches_unknown hr hf hk, raise_status _ _, raise_running _ _, exitStatus_raise _ _, ?frame⟩
  case frame => simp [sameRegs, sameMemory]

end Sys2Proof.Machine
end

section
/-! Memory is read-only to a running program (R104): the handlers and the step keep it as data, so a run keeps every byte. -/

namespace Sys2Proof.Machine

variable {s t : State}

theorem Effect.mem_eq {i : Instr} (h : Effect i s t) : t.mem = s.mem := by
  cases h with
  | halts | outOfRange | loads | prints | compares | jumps | fallsThrough | computes | arithRange => rfl

theorem step_mem_eq (h : step s = .next t) : t.mem = s.mem := by
  obtain ⟨-, ⟨-, rfl⟩ | ⟨-, -, rfl⟩ | ⟨-, k, -, hexec⟩⟩ := step_cases h
  · exact raise_mem _ _
  · exact (raise_mem _ _).trans (emitTrace_mem _ _ _ _)
  · exact (exec_effect hexec).mem_eq.trans (emitTrace_mem _ _ _ _)

theorem runsTo_mem_eq {k : Nat} (h : runsTo k s t) : t.mem = s.mem :=
  runsTo_induction (P := fun s t => t.mem = s.mem) (fun _ => rfl)
    (fun _ _ _ hstep hrest => hrest.trans (step_mem_eq hstep)) k s t h

theorem sameMemory_of_mem_eq (h : t.mem = s.mem) : sameMemory s t :=
  fun addr => congrArg (Memory.get · addr) h

/-- Settles O40: the stored memory itself, not only the byte read from each cell, is the same after any number of steps. -/
theorem memoryIsConstantAlongARun : Obligations.MemoryIsConstantAlongARun :=
  fun _ _ _ h => sameMemory_of_mem_eq (runsTo_mem_eq h)

end Sys2Proof.Machine
end

section
/-! Reading instructions off bytes and writing them as bytes are inverse to each other (R42, R43), and the rows of the opcode
table (R49, R51). -/

namespace Sys2Proof

/-! ## One instruction -/

section

variable {m : OpcodeMap}

/-- The operand bytes of an instruction, whatever bytes come after them, are the operands its entry is given. -/
theorem decodeBytes_cons_operandBytes {op : Byte} {i : Instr} (h : m.lookup op = some i.mnemonic) (rest : List Byte) :
    decodeBytes m (op :: (i.operandBytes ++ rest)) = .instr i rest := by
  cases i with
  | hlt | ldi | prn | cmp | jmp | jeq | jne | add | sub => simp only [decodeBytes, h]; rfl

theorem decodeBytes_encodeWith (hm : m.wf = true) (i : Instr) (rest : List Byte) :
    decodeBytes m (encodeWith m i ++ rest) = .instr i rest :=
  decodeBytes_cons_operandBytes (OpcodeMap.lookup_opcode hm i.mnemonic) rest

/-- Settles O5: a map of nine different opcodes finds the entry of the opcode byte, whose operand count delimits the rest. -/
theorem decodeOfEncodeIsTheInstruction : Obligations.DecodeOfEncodeIsTheInstruction :=
  fun _ hm i rest => decodeBytes_encodeWith hm i rest

/-- Inversion of reading one instruction: an entry of the map, then as many operand bytes as it counts. -/
theorem decodeBytes_cons_eq_instr {op : Byte} {tail rest : List Byte} {i : Instr}
    (h : decodeBytes m (op :: tail) = .instr i rest) :
    m.lookup op = some i.mnemonic ∧ tail = i.operandBytes ++ rest := by
  cases hk : m.lookup op with
  | none => simp [decodeBytes, hk] at h
  | some k =>
    simp only [decodeBytes, hk] at h
    cases k with
    | hlt =>
      obtain ⟨rfl, rfl⟩ := Parsed.instr.inj h
      exact ⟨rfl, rfl⟩
    | prn | jmp | jeq | jne =>
      obtain _ | ⟨a, tail⟩ := tail
      · cases h
      · obtain ⟨rfl, rfl⟩ := Parsed.instr.inj h
        exact ⟨rfl, rfl⟩
    | ldi | cmp | add | sub =>
      obtain _ | ⟨a, _ | ⟨b, tail⟩⟩ := tail
      · cases h
      · cases h
      · obtain ⟨rfl, rfl⟩ := Parsed.instr.inj h
        exact ⟨rfl, rfl⟩

/-- Settles O6: the entry that was found has the opcode byte, also in a map that repeats it, and its operand bytes come after
it. -/
theorem encodeOfDecodeIsTheBytes : Obligations.EncodeOfDecodeIsTheBytes := by
  intro m bs rest i h
  cases bs with
  | nil => simp [decodeBytes] at h
  | cons op tail =>
    obtain ⟨hk, rfl⟩ := decodeBytes_cons_eq_instr h
    rw [encodeWith, OpcodeMap.opcode_of_lookup hk, List.cons_append]

/-! ## A sequence of instructions -/

theorem assemble_cons (i : Instr) (is : List Instr) : assemble m (i :: is) = encodeWith m i ++ assemble m is := rfl

/-- With fuel left, reading the sequence reads its first instruction and goes on with the bytes after it. -/
theorem disassemble_encodeWith_append (hm : m.wf = true) (n : Nat) (i : Instr) (bs : List Byte) :
    disassemble m (n + 1) (encodeWith m i ++ bs) = (disassemble m n bs).map (i :: ·) := by
  have hread := decodeBytes_encodeWith hm i bs
  rw [encodeWith, List.cons_append] at hread ⊢
  simp only [disassemble, hread]

theorem disassemble_assemble (hm : m.wf = true) (is : List Instr) :
    disassemble m is.length (assemble m is) = some is := by
  induction is with
  | nil => rfl
  | cons i is ih => rw [assemble_cons, List.length_cons, disassemble_encodeWith_append hm, ih]; rfl

/-- Settles O7, by induction on the sequence: each instruction is read back and leaves exactly the encodings after it. -/
theorem assembledInstructionsReadBack : Obligations.AssembledInstructionsReadBack :=
  fun _ hm is => disassemble_assemble hm is

end

/-! ## An entry with its operands -/

theorem eq_mnemonic_of_withOperands {k : Mnemonic} {a b : Byte} {i : Instr} (h : k.withOperands a b = i) :
    k = i.mnemonic := by
  rw [← h, Instr.mnemonic_withOperands]

/-- The entry of an instruction, on bytes that begin with its operand bytes, is the instruction. -/
theorem withOperands_mnemonic {i : Instr} {a b : Byte} (h : i.operandBytes <+: [a, b]) :
    i.mnemonic.withOperands a b = i := by
  cases i with
  | hlt => rfl
  | prn | jmp | jeq | jne =>
    obtain rfl := (List.cons_prefix_cons.1 h).1
    rfl
  | ldi | cmp | add | sub =>
    obtain ⟨rfl, htail⟩ := List.cons_prefix_cons.1 h
    obtain rfl := (List.cons_prefix_cons.1 htail).1
    rfl

theorem regOperands_withOperands {k : Mnemonic} (h : k ≠ .hlt) (a b : Byte) :
    ∃ rest, (k.withOperands a b).regOperands = a :: rest := by
  cases k with
  | hlt => exact absurd rfl h
  | ldi | prn | cmp | jmp | jeq | jne | add | sub => exact ⟨_, rfl⟩

/-! ## The table of R49 -/

theorem defaultOpcodeMap_opcodes :
    Mnemonic.all.map defaultOpcodeMap.opcode = [0x01, 0x82, 0x47, 0xA7, 0x54, 0x55, 0x56, 0xA0, 0xA1] := rfl

theorem decodeFetched_default_opcode (k : Mnemonic) (a b : Byte) :
    decodeFetched defaultOpcodeMap (defaultOpcodeMap.opcode k) a b = .instr (k.withOperands a b) :=
  decodeFetched_of_lookup (OpcodeMap.lookup_opcode defaultOpcodeMap_wf k) a b

/-- The lookup fails exactly on the bytes that are not in the list of the map's nine. -/
theorem OpcodeMap.lookup_eq_none_iff_notMem {m : OpcodeMap} {op : Byte} :
    m.lookup op = none ↔ op ∉ Mnemonic.all.map m.opcode := by
  simp [OpcodeMap.lookup_eq_none, Mnemonic.mem_all]

/-- Settles O3: each row is the table's own entry, and every other byte is in no entry. -/
theorem allOtherBytesAreUnknown : Obligations.AllOtherBytesAreUnknown := by
  intro op a b
  refine ⟨decodeFetched_default_opcode .hlt a b, decodeFetched_default_opcode .ldi a b,
    decodeFetched_default_opcode .prn a b, decodeFetched_default_opcode .cmp a b, decodeFetched_default_opcode .jmp a b,
    decodeFetched_default_opcode .jeq a b, decodeFetched_default_opcode .jne a b, decodeFetched_default_opcode .add a b,
    decodeFetched_default_opcode .sub a b, ?unknown⟩
  case unknown =>
    rw [decodeFetched_eq_unknownOpcode, OpcodeMap.lookup_eq_none_iff_notMem, defaultOpcodeMap_opcodes]

/-- Settles O1: the decoder evaluates each of the seven words. -/
theorem sampleWordsDecode : Obligations.SampleWordsDecode := by
  unfold Obligations.SampleWordsDecode
  decide

/-! ## The fields of the opcode byte (R44) -/

theorem opcodeAA_eq (op : Byte) : opcodeAA op = op.toNat / 64 := by
  simp [opcodeAA, Nat.shiftRight_eq_div_pow]

theorem toNat_opcodeB (op : Byte) : (opcodeB op).toNat = op.toNat / 32 % 2 :=
  Nat.toNat_testBit op.toNat 5

theorem toNat_opcodeC (op : Byte) : (opcodeC op).toNat = op.toNat / 16 % 2 :=
  Nat.toNat_testBit op.toNat 4

theorem opcodeDDDD_eq (op : Byte) : opcodeDDDD op = op.toNat % 16 :=
  Nat.and_two_pow_sub_one_eq_mod op.toNat 4

/-- Settles O10: the four fields are the byte's bits from the top down, and the nine bytes of the table are looked at. -/
theorem opcodeFieldsAgreeWithTheMap : Obligations.OpcodeFieldsAgreeWithTheMap := by
  refine ⟨fun op => ?fields, fun k => ?table⟩
  case fields =>
    rw [opcodeAA_eq, toNat_opcodeB, toNat_opcodeC, opcodeDDDD_eq]
    have hop : op.toNat < 256 := op.isLt
    omega
  case table =>
    cases k with
    | hlt | ldi | prn | cmp | jmp | jeq | jne | add | sub => decide

end Sys2Proof
end

section
/-! What a handler, and a step, can change of each part of the state: one lemma for each part, from the one inversion of exec
and the one inversion of a step. -/

namespace Sys2Proof.Machine

variable {i : Instr} {s t : State}

/-! ## Handlers -/

theorem Effect.sameOuter (h : Effect i s t) : sameOuter s t := by
  cases h with
  | halts | outOfRange | loads | prints | compares | jumps | fallsThrough | computes | arithRange => exact ⟨rfl, rfl, rfl⟩

/-- A handler ends the run only as HLT, or by a raise (R58). -/
theorem Effect.control_cases (h : Effect i s t) :
    sameControl s t ∨ (i = .hlt ∧ t = (halt s).advance 1) ∨ ∃ c, t = raise c s := by
  cases h with
  | halts hi => exact .inr (.inl ⟨hi, rfl⟩)
  | outOfRange | arithRange => exact .inr (.inr ⟨_, rfl⟩)
  | loads | prints | compares | jumps | fallsThrough | computes => exact .inl ⟨rfl, rfl⟩

/-- The fatal conditions of a handler (R81, R82): each is one raise, with its cause. -/
theorem Effect.fatal_cases {c : Condition} (h : Effect i s t) (hs : s.status = .none) (ht : t.status = .fatal c) :
    t = raise c s ∧
      ((∃ r ∈ i.regOperands, 8 ≤ r.toNat ∧ c = .outOfRange r s.pc) ∨
        ∃ (op : AluOp) (a b : Byte) (ha : a.toNat < 8) (hb : b.toNat < 8), i = aluInstr op a b ∧
          alu s.params.arithPolicy op (s.reg ⟨a.toNat, ha⟩) (s.reg ⟨b.toNat, hb⟩) = none ∧ c = .arithRange s.pc) := by
  cases h with
  | halts => simp at ht
  | loads | prints | compares | jumps | fallsThrough | computes => simp [hs] at ht
  | outOfRange r hr h8 =>
    obtain rfl := Status.fatal.inj ht
    exact ⟨rfl, .inl ⟨r, hr, h8, rfl⟩⟩
  | arithRange op a b ha hb hi hv =>
    obtain rfl := Status.fatal.inj ht
    exact ⟨rfl, .inr ⟨op, a, b, ha, hb, hi, hv, rfl⟩⟩

theorem Effect.E_cases (h : Effect i s t) : t.E = s.E ∨ ∃ a b, i = .cmp a b := by
  cases h with
  | compares a b ha hb hi => exact .inr ⟨a, b, hi⟩
  | halts | outOfRange | loads | prints | jumps | fallsThrough | computes | arithRange => exact .inl rfl

theorem Effect.out_cases (h : Effect i s t) : t.out = s.out ∨ ∃ a v, i = .prn a ∧ t.out = s.out ++ [v] := by
  cases h with
  | prints a ha hi => exact .inr ⟨a, _, hi, rfl⟩
  | halts | outOfRange | loads | compares | jumps | fallsThrough | computes | arithRange => exact .inl rfl

/-- A register that a handler changes is the destination of LDI, ADD or SUB (R14). -/
theorem Effect.reg_cases (h : Effect i s t) (r : RegIx) :
    t.reg r = s.reg r ∨ ∃ a b : Byte, a.toNat = r.val ∧ (i = .ldi a b ∨ i = .add a b ∨ i = .sub a b) := by
  cases h with
  | halts | outOfRange | prints | compares | jumps | fallsThrough | arithRange => exact .inl rfl
  | loads a imm ha hi =>
    by_cases hr : r = ⟨a.toNat, ha⟩
    · exact .inr ⟨a, imm, by rw [hr], .inl hi⟩
    · exact .inl (reg_setReg_of_ne s _ r imm hr)
  | computes op a b v ha hb hi =>
    by_cases hr : r = ⟨a.toNat, ha⟩
    · refine .inr ⟨a, b, by rw [hr], ?_⟩
      cases op with
      | add => exact .inr (.inl hi)
      | sub => exact .inr (.inr hi)
    · exact .inl (reg_setReg_of_ne s _ r v hr)

/-! ## Steps -/

/-- The state in which the handler runs: after the trace record of the three bytes at pc (R96). -/
def State.recorded (s : State) : State :=
  emitTrace (s.byteAt s.pc) (s.byteAt (s.pc + 1)) (s.byteAt (s.pc + 2)) s

/-- What a step answers, by where it ends: in a raise of the front end, or in the effect of a decoded instruction. -/
theorem step_effect (h : step s = .next t) :
    s.running = true ∧
    ((253 < s.pc ∧ t = raise (.memoryFault (max 256 s.pc) s.pc) s) ∨
     (s.pc ≤ 253 ∧ s.params.opcodeMap.lookup (s.byteAt s.pc) = none ∧
      t = raise (.unknownOpcode (s.byteAt s.pc) s.pc) s.recorded) ∨
     (s.pc ≤ 253 ∧ ∃ k, s.params.opcodeMap.lookup (s.byteAt s.pc) = some k ∧
      Effect (k.withOperands (s.byteAt (s.pc + 1)) (s.byteAt (s.pc + 2))) s.recorded t)) := by
  obtain ⟨hr, hfault | hunknown | ⟨hp, k, hk, hexec⟩⟩ := step_cases h
  · exact ⟨hr, .inl hfault⟩
  · exact ⟨hr, .inr (.inl hunknown)⟩
  · exact ⟨hr, .inr (.inr ⟨hp, k, hk, exec_effect hexec⟩)⟩

theorem step_running (h : step s = .next t) : s.running = true := (step_effect h).1

/-- A running core always steps (R59). -/
theorem exists_step (hr : s.running = true) : ∃ t, step s = .next t := by
  by_cases hp : s.pc ≤ 253
  · cases hk : s.params.opcodeMap.lookup (s.byteAt s.pc) with
    | none => exact ⟨_, step_unknown hr hp hk⟩
    | some k => rw [step_decoded hr hp hk]; exact exec_total _ _
  · exact ⟨_, step_outside hr (Nat.not_le.1 hp)⟩

@[simp] theorem recorded_x (s : State) : s.recorded.x = s.x := emitTrace_x _ _ _ s
@[simp] theorem recorded_pc (s : State) : s.recorded.pc = s.pc := emitTrace_pc _ _ _ s
@[simp] theorem recorded_E (s : State) : s.recorded.E = s.E := emitTrace_E _ _ _ s
@[simp] theorem recorded_running (s : State) : s.recorded.running = s.running := emitTrace_running _ _ _ s
@[simp] theorem recorded_status (s : State) : s.recorded.status = s.status := emitTrace_status _ _ _ s
@[simp] theorem recorded_mem (s : State) : s.recorded.mem = s.mem := emitTrace_mem _ _ _ s
@[simp] theorem recorded_out (s : State) : s.recorded.out = s.out := emitTrace_out _ _ _ s
@[simp] theorem recorded_load (s : State) : s.recorded.load = s.load := emitTrace_load _ _ _ s
@[simp] theorem recorded_params (s : State) : s.recorded.params = s.params := emitTrace_params _ _ _ s
@[simp] theorem recorded_reg (s : State) (r : RegIx) : s.recorded.reg r = s.reg r := emitTrace_reg _ _ _ s r
@[simp] theorem recorded_byteAt (s : State) (addr : Nat) : s.recorded.byteAt addr = s.byteAt addr :=
  emitTrace_byteAt _ _ _ s addr

theorem recorded_off (h : s.params.traceEnabled = false) : s.recorded = s := emitTrace_off _ _ _ s h

theorem recorded_of_fetches {op a b : Byte} (hf : fetches s op a b) : s.recorded = emitTrace op a b s := by
  obtain ⟨-, rfl, rfl, rfl⟩ := hf
  rfl

/-- No step changes the parameters or the load phase (assumption log 1 and 13). -/
theorem step_params_load_eq (h : step s = .next t) : t.params = s.params ∧ t.load = s.load := by
  obtain ⟨-, ⟨-, rfl⟩ | ⟨-, -, rfl⟩ | ⟨-, k, -, heff⟩⟩ := step_effect h
  · exact ⟨rfl, rfl⟩
  · simp
  · obtain ⟨hload, -, hparams⟩ := heff.sameOuter
    simp [hload, hparams]

end Sys2Proof.Machine
end

section
/-! Updates that no handler looks at (the trace, E away from its readers, ARITH_POLICY away from ArithRange): a handler, a step
and a run do the same on both sides of one. -/

namespace Sys2Proof.Machine

/-- An update of E, the trace channel and the parameters other than the opcode map: every operation the handlers are built
from, but those that read or write what it changes, commutes with it. -/
structure Unseen (g : State → State) : Prop where
  x : ∀ s, (g s).x = s.x := by intros; rfl
  pc : ∀ s, (g s).pc = s.pc := by intros; rfl
  running : ∀ s, (g s).running = s.running := by intros; rfl
  mem : ∀ s, (g s).mem = s.mem := by intros; rfl
  opcodeMap : ∀ s, (g s).params.opcodeMap = s.params.opcodeMap := by intros; rfl
  raise : ∀ c s, raise c (g s) = g (raise c s) := by intros; rfl
  halt : ∀ s, halt (g s) = g (halt s) := by intros; rfl
  setReg : ∀ s r v, (g s).setReg r v = g (s.setReg r v) := by intros; rfl
  jumpTo : ∀ s v, (g s).jumpTo v = g (s.jumpTo v) := by intros; rfl
  advance : ∀ s n, (g s).advance n = g (s.advance n) := by intros; rfl
  emit : ∀ s v, (g s).emit v = g (s.emit v) := by intros; rfl

theorem unseen_setE (v : Bool) : Unseen (·.setE v) where
theorem unseen_untraced : Unseen State.untraced where
theorem unseen_withPolicy (p : ArithPolicy) : Unseen (·.withPolicy p) where

namespace Unseen

variable {g : State → State} {s t : State} {i : Instr}

theorem reg (hg : Unseen g) (s : State) (r : RegIx) : (g s).reg r = s.reg r := by
  rw [State.reg, State.reg, hg.x]

theorem byteAt (hg : Unseen g) (s : State) (addr : Nat) : (g s).byteAt addr = s.byteAt addr := by
  rw [State.byteAt, State.byteAt, hg.mem]

/-! ## Handlers -/

theorem withReg (hg : Unseen g) (a : Byte) {k k' : RegIx → State} (hk : ∀ r, regIndex a = some r → k' r = g (k r)) :
    withReg a (g s) k' = g (withReg a s k) := by
  cases ha : regIndex a with
  | some r => simp only [Machine.withReg, ha, hk r ha]
  | none => simp only [Machine.withReg, ha, hg.pc, hg.raise]

theorem branch (hg : Unseen g) {taken taken' : Bool} (htaken : taken' = taken) (a : Byte) :
    branch taken' a (g s) = g (branch taken a s) := by
  subst htaken
  refine hg.withReg a fun r _ => ?_
  cases taken' with
  | true => simp only [if_true, hg.reg, hg.jumpTo]
  | false => exact hg.advance s 2

theorem aluRegisters (hg : Unseen g) (op : AluOp) (a b : Byte)
    (halu : ∀ ra rb, regIndex a = some ra → regIndex b = some rb →
      alu (g s).params.arithPolicy op (s.reg ra) (s.reg rb) = alu s.params.arithPolicy op (s.reg ra) (s.reg rb)) :
    aluRegisters op a b (g s) = g (aluRegisters op a b s) := by
  refine hg.withReg a fun ra ha => hg.withReg b fun rb hb => ?_
  simp only [hg.reg, halu ra rb ha hb]
  cases alu s.params.arithPolicy op (s.reg ra) (s.reg rb) with
  | some v => simp only [hg.setReg, hg.advance]
  | none => simp only [hg.pc, hg.raise]

/-- A handler on both sides of the update. CMP, JEQ and JNE ask that it leaves E alone, and ADD and SUB that the ALU
answers the same. -/
theorem exec (hg : Unseen g)
    (hcmp : ∀ a b, i = .cmp a b → ∀ v, (g s).setE v = g (s.setE v))
    (hbranch : ∀ a, i = .jeq a ∨ i = .jne a → (g s).E = s.E)
    (halu : ∀ op a b ra rb, i = aluInstr op a b → regIndex a = some ra → regIndex b = some rb →
      alu (g s).params.arithPolicy op (s.reg ra) (s.reg rb) = alu s.params.arithPolicy op (s.reg ra) (s.reg rb))
    (h : exec i s = .next t) : exec i (g s) = .next (g t) := by
  cases i with
  | hlt =>
    cases h
    rw [exec_hlt, hg.halt, hg.advance]
  | ldi a imm =>
    cases h
    exact congrArg _ (hg.withReg a fun r _ => by rw [hg.setReg, hg.advance])
  | prn a =>
    cases h
    exact congrArg _ (hg.withReg a fun r _ => by rw [hg.reg, hg.emit, hg.advance])
  | cmp a b =>
    cases h
    exact congrArg _ (hg.withReg a fun ra _ => hg.withReg b fun rb _ => by
      simp only [hg.reg, hcmp a b rfl, hg.advance])
  | jmp a =>
    cases h
    exact congrArg _ (hg.branch rfl a)
  | jeq a =>
    cases h
    exact congrArg _ (hg.branch (hbranch a (.inl rfl)) a)
  | jne a =>
    cases h
    exact congrArg _ (hg.branch (congrArg not (hbranch a (.inr rfl))) a)
  | add a b =>
    cases h
    exact congrArg _ (hg.aluRegisters .add a b fun ra rb => halu .add a b ra rb rfl)
  | sub a b =>
    cases h
    exact congrArg _ (hg.aluRegisters .sub a b fun ra rb => halu .sub a b ra rb rfl)

/-! ## Steps -/

theorem recorded (hg : Unseen g) (hrec : ∀ op a b, emitTrace op a b (g s) = g (emitTrace op a b s)) :
    (g s).recorded = g s.recorded := by
  simp only [State.recorded, hg.byteAt, hg.pc, hrec]

/-- A step on both sides of the update, given its trace record and its handler on both sides. -/
theorem step (hg : Unseen g) (hrec : ∀ op a b, emitTrace op a b (g s) = g (emitTrace op a b s))
    (hexec : ∀ i, Machine.exec i s.recorded = .next t → Machine.exec i (g s.recorded) = .next (g t))
    (h : step s = .next t) : step (g s) = .next (g t) := by
  obtain ⟨hr, hcases⟩ := step_cases h
  have hr' : (g s).running = true := (hg.running s).trans hr
  obtain ⟨hp, rfl⟩ | ⟨hp, hk, rfl⟩ | ⟨hp, k, hk, hexec_t⟩ := hcases
  · rw [step_outside hr' (by rwa [hg.pc]), hg.pc, hg.raise]
  · rw [step_unknown hr' (by rwa [hg.pc]) (by rwa [hg.opcodeMap, hg.byteAt, hg.pc])]
    simp only [hg.byteAt, hg.pc, hrec, hg.raise]
  · rw [step_decoded hr' (by rwa [hg.pc]) (k := k) (by rwa [hg.opcodeMap, hg.byteAt, hg.pc])]
    simp only [hg.byteAt, hg.pc, hrec]
    exact hexec _ hexec_t

end Unseen

variable {s t : State}

/-! ## The trace -/

/-- With the trace on, one record is appended (R96). -/
theorem emitTrace_on (op a b : Byte) (s : State) (h : s.params.traceEnabled = true) :
    emitTrace op a b s = { s with trace := s.trace ++ [⟨s.pc, op, a, b, s.x⟩] } :=
  if_pos h

theorem emitTrace_untraced (op a b : Byte) (s : State) :
    emitTrace op a b s.untraced = (emitTrace op a b s).untraced := by
  rw [emitTrace_off op a b s.untraced rfl, emitTrace]
  split <;> rfl

/-- A step with the trace out of sight is the step of the core without it (R96). -/
theorem step_untraced (h : step s = .next t) : step s.untraced = .next t.untraced :=
  unseen_untraced.step (fun op a b => emitTrace_untraced op a b s)
    (fun _ => unseen_untraced.exec (fun _ _ _ _ => rfl) (fun _ _ => rfl) fun _ _ _ _ _ _ _ _ => rfl) h

theorem step_of_untraced_eq {u : State} (hsu : s.untraced = u.untraced) (h : step s = .next t) :
    ∃ v, step u = .next v ∧ v.untraced = t.untraced := by
  have hru : u.running = true := by rw [← u.untraced_running, ← hsu, State.untraced_running, step_running h]
  obtain ⟨v, hv⟩ := exists_step hru
  have hvs : step s.untraced = .next v.untraced := hsu ▸ step_untraced hv
  exact ⟨v, hv, Host.Outcome.next.inj (hvs.symm.trans (step_untraced h))⟩

/-- Settles O53, by induction on the number of steps: cores that agree once untraced step to cores that do. -/
theorem traceDoesNotAffectTheRun : Obligations.TraceDoesNotAffectTheRun := by
  intro k
  induction k with
  | zero =>
    intro s u t hsu h
    rw [runsTo_zero] at h
    exact ⟨u, runsTo_zero.2 rfl, h ▸ hsu.symm⟩
  | succ k ih =>
    intro s u t hsu h
    obtain ⟨s', hs', hrest⟩ := runsTo_succ.1 h
    obtain ⟨u', hu', huntraced⟩ := step_of_untraced_eq hsu hs'
    obtain ⟨v, hv, hvt⟩ := ih s' u' t huntraced.symm hrest
    exact ⟨v, runsTo_succ.2 ⟨u', hu', hv⟩, hvt⟩

/-! ## The arithmetic policy -/

theorem emitTrace_withPolicy (p : ArithPolicy) (op a b : Byte) (s : State) :
    emitTrace op a b (s.withPolicy p) = (emitTrace op a b s).withPolicy p := by
  cases h : s.params.traceEnabled with
  | false => rw [emitTrace_off op a b s h, emitTrace_off op a b (s.withPolicy p) h]
  | true => rw [emitTrace_on op a b s h, emitTrace_on op a b (s.withPolicy p) h]; rfl

theorem exec_aluInstr (op : AluOp) (a b : Byte) (s : State) : exec (aluInstr op a b) s = .next (aluRegisters op a b s) := by
  cases op <;> rfl

/-- A handler that raises no ArithRange does the same under `wrap` (decision D1). -/
theorem exec_withPolicy_wrap {i : Instr} (hp : s.params.arithPolicy = .fault) (hno : t ≠ raise (.arithRange s.pc) s)
    (h : exec i s = .next t) : exec i (s.withPolicy .wrap) = .next (t.withPolicy .wrap) := by
  refine (unseen_withPolicy .wrap).exec (fun _ _ _ _ => rfl) (fun _ _ => rfl) ?_ h
  rintro op a b ra rb rfl hra hrb
  cases hv : alu s.params.arithPolicy op (s.reg ra) (s.reg rb) with
  | some v => exact alu_fault_some (hp ▸ hv)
  | none =>
    refine absurd ?_ hno
    rw [exec_aluInstr] at h
    cases h
    simp only [aluRegisters, withRegs, withReg, hra, hrb, hv]

theorem step_withPolicy_wrap (hp : s.params.arithPolicy = .fault) (hno : t ≠ raise (.arithRange s.pc) s.recorded)
    (h : step s = .next t) : step (s.withPolicy .wrap) = .next (t.withPolicy .wrap) :=
  (unseen_withPolicy .wrap).step (fun op a b => emitTrace_withPolicy .wrap op a b s)
    (fun _ => exec_withPolicy_wrap (by rwa [recorded_params]) (by rwa [recorded_pc])) h

/-- Settles O54, by induction on the number of steps: a step that raised ArithRange would be the last one, and its status
that of the run's end. -/
theorem faultPolicyRunIsAWrapPolicyRun : Obligations.FaultPolicyRunIsAWrapPolicyRun := by
  intro k
  induction k with
  | zero =>
    intro s t _ h _
    rw [runsTo_zero] at h ⊢
    rw [h]
  | succ k ih =>
    intro s t hp h hno
    obtain ⟨u, hu, hrest⟩ := runsTo_succ.1 h
    have hnoRaise : u ≠ raise (.arithRange s.pc) s.recorded := by
      rintro rfl
      rw [runsTo_halted rfl hrest] at hno
      exact hno _ rfl
    have hpu : u.params.arithPolicy = .fault := by rw [(step_params_load_eq hu).1, hp]
    exact runsTo_succ.2 ⟨_, step_withPolicy_wrap hp hnoRaise hu, ih u t hpu hrest hno⟩

end Sys2Proof.Machine
end

section
/-! The invariant of the core: reset and every load meet it, every step keeps it, and what it says of the end of a run. -/

namespace Sys2Proof.Machine

variable {s t : State}

/-! ## Reset and load -/

/-- Settles O48: memory is empty, pc is 0, nothing runs, and no status is set. -/
theorem resetMeetsTheInvariant : Obligations.ResetMeetsTheInvariant := fun _ => by
  refine ⟨rfl, Nat.zero_le 256, ?running, ?status, fun _ => rfl, fun _ => rfl⟩
  case running => simp
  case status =>
    intro c hc
    cases hc

theorem State.Inv.status_none_of_not_loaded (h : s.Inv) (hl : s.load ≠ .loaded) : s.status = .none := by
  rw [h.beforeLoad hl]
  rfl

/-- A refused load changes the load phase alone, and no instruction has executed before it. -/
theorem State.Inv.refused (h : s.Inv) (hl : s.load = .awaiting) (hr : s.running = false) (r : LoadRefusal) :
    State.Inv { s with load := .refused r } := by
  have hbefore : s = { State.resetWith s.params with load := s.load } := h.beforeLoad (by simp [hl])
  refine ⟨h.memory, h.pcRange, ?running, h.status, fun _ => ?reset, h.trace⟩
  case running => simp [hr]
  case reset => exact congrArg (fun u : State => { u with load := .refused r }) hbefore

/-- An accepted load writes memory and starts a core that has no status yet. -/
theorem State.Inv.startEngine (h : s.Inv) (hl : s.load = .awaiting) {m : Memory} (hm : Memory.wf m = true) :
    (startEngine { s with mem := m }).Inv := by
  have hnone : s.status = .none := h.status_none_of_not_loaded (by simp [hl])
  refine ⟨hm, Nat.zero_le 256, ?running, ?status, fun hload => absurd rfl hload, h.trace⟩
  case running => simp [hnone]
  case status =>
    intro c hc
    cases hnone.symm.trans hc

/-- Settles O49: of LOAD's answers, one keeps the core, two change the load phase alone, and one writes a canonical memory. -/
theorem loadKeepsTheInvariant : Obligations.LoadKeepsTheInvariant := by
  intro ws s h
  obtain ⟨-, hload⟩ | ⟨⟨hl, hr⟩, ⟨-, hload⟩ | ⟨-, -, hload⟩ | ⟨hlen, -, hload⟩⟩ := loadProgram_cases ws s <;> rw [hload]
  · exact h
  · exact h.refused hl hr .loadTooLong
  · exact h.refused hl hr .loadBadWord
  · obtain ⟨m, hm, hwf, -⟩ := writeImage_spec ws Config.loadBase s (by simpa [Config.loadBase] using hlen) h.memory
    rw [hm]
    exact h.startEngine hl hwf

/-! ## Steps -/

/-- The invariant of a running core, in the parts that a step can change. -/
theorem State.inv_iff_of_running (hr : s.running = true) :
    s.Inv ↔ Memory.wf s.mem = true ∧ s.pc ≤ 256 ∧ s.load = .loaded ∧ s.status = .none ∧
      (s.params.traceEnabled = false → s.trace = []) := by
  constructor
  · intro h
    obtain ⟨hload, hstatus⟩ := h.running.1 hr
    exact ⟨h.memory, h.pcRange, hload, hstatus, h.trace⟩
  · rintro ⟨hmem, hpc, hload, hstatus, htrace⟩
    exact ⟨hmem, hpc, by simp [hr, hload, hstatus], fun c hc => by simp [hstatus] at hc,
      fun hl => absurd hload hl, htrace⟩

theorem State.Inv.recorded (h : s.Inv) (hr : s.running = true) : s.recorded.Inv := by
  obtain ⟨hmem, hpc, hload, hstatus, htrace⟩ := (State.inv_iff_of_running hr).1 h
  refine (State.inv_iff_of_running (by simpa using hr)).2 ⟨by simpa, by simpa, by simpa, by simpa, fun hoff => ?_⟩
  rw [recorded_params] at hoff
  rw [recorded_off hoff, htrace hoff]

/-- A step that goes on: pc stays in range, and the control state and what no handler touches are as they were. -/
theorem State.Inv.of_sameControl (h : s.Inv) (hr : s.running = true) (hmem : t.mem = s.mem) (hpc : t.pc ≤ 256)
    (hcontrol : sameControl s t) (houter : sameOuter s t) : t.Inv := by
  obtain ⟨hwf, -, hload, hstatus, htrace⟩ := (State.inv_iff_of_running hr).1 h
  obtain ⟨hrunning, hstatus'⟩ := hcontrol
  obtain ⟨hload', htrace', hparams⟩ := houter
  refine (State.inv_iff_of_running (hrunning.trans hr)).2 ⟨by rwa [hmem], hpc, by rwa [hload'], by rwa [hstatus'], ?_⟩
  rwa [htrace', hparams]

/-- A raise from RUNNING, for a condition that agrees with the state it is raised in (R81, R88). -/
theorem State.Inv.raise (h : s.Inv) (hr : s.running = true) {c : Condition} (hc : c.agreesWith s) : (raise c s).Inv := by
  obtain ⟨hload, -⟩ := h.running.1 hr
  refine ⟨h.memory, h.pcRange, by simp, ?status, fun hl => absurd hload hl, h.trace⟩
  case status =>
    intro c' hc'
    obtain rfl := Status.fatal.inj hc'
    exact hc

theorem State.Inv.halt_advance (h : s.Inv) (hr : s.running = true) (hpc : s.pc ≤ 253) : ((halt s).advance 1).Inv := by
  obtain ⟨hload, -⟩ := h.running.1 hr
  refine ⟨h.memory, ?pc, by simp, by simp, fun hl => absurd hload hl, h.trace⟩
  case pc =>
    rw [State.advance_pc, halt_pc]
    omega

/-- Every handler keeps the invariant of a running core whose instruction lies in memory. -/
theorem Effect.inv {i : Instr} (h : Effect i s t) (hs : s.Inv) (hr : s.running = true) (hpc : s.pc ≤ 253) : t.Inv := by
  have hmem := h.mem_eq
  have houter := h.sameOuter
  cases h with
  | halts => exact hs.halt_advance hr hpc
  | outOfRange r _ h8 => exact hs.raise hr ⟨rfl, h8, hpc⟩
  | arithRange op a b ha hb _ hv => exact hs.raise hr ⟨rfl, alu_none hv, hpc⟩
  | jumps a ha =>
    refine hs.of_sameControl hr hmem ?_ ⟨rfl, rfl⟩ houter
    have hlt : (s.reg ⟨a.toNat, ha⟩).toNat < 256 := (s.reg ⟨a.toNat, ha⟩).isLt
    exact hlt.le
  | prints | fallsThrough => exact hs.of_sameControl hr hmem (show s.pc + 2 ≤ 256 by omega) ⟨rfl, rfl⟩ houter
  | loads | compares | computes => exact hs.of_sameControl hr hmem (show s.pc + 3 ≤ 256 by omega) ⟨rfl, rfl⟩ houter

/-- Settles O50: each raise of the front end agrees with the state it is raised in, and the handlers keep the invariant. -/
theorem stepKeepsTheInvariant : Obligations.StepKeepsTheInvariant := by
  intro s t hs h
  obtain ⟨hr, ⟨hpc, rfl⟩ | ⟨hpc, hk, rfl⟩ | ⟨hpc, k, -, heff⟩⟩ := step_effect h
  · have hmax : max 256 s.pc = 256 := max_eq_left hs.pcRange
    exact hs.raise hr ⟨rfl, hmax, by omega⟩
  · refine (hs.recorded hr).raise (by simpa) ⟨by simp [Condition.pc], ?_, hpc, by simpa⟩
    exact recorded_byteAt s s.pc
  · exact heff.inv (hs.recorded hr) (by simpa) (by simpa)

/-! ## The end of a run -/

/-- Settles O51: RUNNING says that no status is set, and each of the two others has its own exit status. -/
theorem endOfARun : Obligations.EndOfARun := by
  intro s hs hload
  refine ⟨fun hr => ?ended, fun hr => by simp [State.observe, hr], fun hr => ?running⟩
  case ended =>
    cases hst : s.status with
    | none => simp [hs.running.2 ⟨hload, hst⟩] at hr
    | halted => exact .inl (by simp [State.endedNormally, State.endedFatally, State.exitStatus, hr, hload, hst])
    | fatal c => exact .inr (by simp [State.endedNormally, State.endedFatally, State.exitStatus, hr, hload, hst])
  case running =>
    obtain ⟨-, hst⟩ := hs.running.1 hr
    simp [State.exitStatus, State.observe, hr, hload, hst]

end Sys2Proof.Machine
end

section
/-! Memory, the load interface and the program file: read after write (R31), the canonical form, what LOAD does (R40, R41), and
what the reader of a program file leaves out (R54). -/

namespace Sys2Proof.Machine

variable {s t : State}

/-! ## Memory -/

/-- Settles O38: an access inside memory is the cell's value, and the write of a cell is read back by the cell law. -/
theorem memReadAfterMemWrite : Obligations.MemReadAfterMemWrite := by
  intro s addr q v hwf ha hq
  have ha' : addr < 256 := by omega
  have hq' : q < 256 := by omega
  rw [memRead_inside hq', memRead_inside hq', memWrite_inside ha']
  refine ⟨?read, Memory.set_wf hwf ha'⟩
  case read =>
    rw [State.byteAt, Memory.get_set hwf]
    split <;> rfl

theorem Memory.get_cons_same (a : Nat) (v : Byte) (rest : Memory) : Memory.get ((a, v) :: rest) a = v := if_pos rfl

theorem Memory.get_cons_of_ne {a q : Nat} (v : Byte) (rest : Memory) (h : a ≠ q) :
    Memory.get ((a, v) :: rest) q = Memory.get rest q := if_neg h

/-- The first listed address of a canonical list is where the lists that read the same begin. -/
theorem Memory.le_head_of_get_eq {lo a : Nat} {v : Byte} {rest n : Memory} (hm : Memory.wfFrom lo ((a, v) :: rest) = true)
    (hn : Memory.wfFrom lo n = true) (h : ∀ q, Memory.get ((a, v) :: rest) q = Memory.get n q) :
    ∃ b w tail, n = (b, w) :: tail ∧ b ≤ a := by
  obtain ⟨-, -, hv, -⟩ := Memory.wfFrom_cons.1 hm
  have ha : Memory.get n a = v := by rw [← h a, Memory.get_cons_same]
  cases n with
  | nil => exact absurd ha.symm hv
  | cons c tail =>
    obtain ⟨b, w⟩ := c
    refine ⟨b, w, tail, rfl, ?_⟩
    by_contra hab
    obtain ⟨-, hb, hw, htail⟩ := Memory.wfFrom_cons.1 hn
    have hzero : Memory.get ((b, w) :: tail) a = 0 :=
      Memory.get_below (Memory.wfFrom_cons.2 ⟨le_refl b, hb, hw, htail⟩) (Nat.not_le.1 hab)
    exact hv (ha.symm.trans hzero)

theorem Memory.ext_get {lo : Nat} {m n : Memory} (hm : Memory.wfFrom lo m = true) (hn : Memory.wfFrom lo n = true)
    (h : ∀ q, Memory.get m q = Memory.get n q) : m = n := by
  induction m generalizing lo n with
  | nil =>
    cases n with
    | nil => rfl
    | cons c tail =>
      obtain ⟨_, _, _, hnil, -⟩ := Memory.le_head_of_get_eq hn hm fun q => (h q).symm
      cases hnil
  | cons c rest ih =>
    obtain ⟨a, v⟩ := c
    obtain ⟨b, w, tail, rfl, hba⟩ := Memory.le_head_of_get_eq hm hn h
    obtain ⟨_, _, _, hcons, hab⟩ := Memory.le_head_of_get_eq hn hm fun q => (h q).symm
    cases hcons
    obtain rfl : a = b := le_antisymm hab hba
    obtain rfl : v = w := by simpa only [Memory.get_cons_same] using h a
    obtain ⟨-, -, -, hrest⟩ := Memory.wfFrom_cons.1 hm
    obtain ⟨-, -, -, htail⟩ := Memory.wfFrom_cons.1 hn
    refine congrArg _ (ih hrest htail fun q => ?_)
    by_cases hq : a = q
    · rw [Memory.get_below hrest (by omega), Memory.get_below htail (by omega)]
    · simpa only [Memory.get_cons_of_ne _ _ hq] using h q

/-- Settles O39: outside the 256 cells both read 0, and lists that read the same everywhere have the same first cell. -/
theorem equalMemoriesAreEqualData : Obligations.EqualMemoriesAreEqualData := by
  intro m n hm hn h
  refine Memory.ext_get hm hn fun q => ?_
  by_cases hq : q ≤ 255
  · exact h q hq
  · rw [Memory.get_outside hm (by omega), Memory.get_outside hn (by omega)]

/-! ## Reset -/

theorem resetWith_reg (p : Params) (r : RegIx) : (State.resetWith p).reg r = 0 :=
  Vector.getElem_replicate r.isLt

/-- Settles O47: every field of the reset state is written out. -/
theorem resetState : Obligations.ResetState :=
  ⟨fun p => ⟨resetWith_reg p, fun _ => rfl, rfl, rfl, rfl, rfl, rfl, rfl, rfl⟩, rfl, rfl, rfl⟩

/-! ## The load -/

theorem loadProgram_notAccepted (ws : List Nat) (h : ¬ (s.load = .awaiting ∧ s.running = false)) :
    loadProgram ws s = .notAccepted := if_neg h

theorem loadProgram_notAccepted_of_load (ws : List Nat) (h : s.load ≠ .awaiting) : loadProgram ws s = .notAccepted :=
  loadProgram_notAccepted ws fun hc => h hc.1

theorem loadProgram_accepts {ws : List Nat} (hl : s.load = .awaiting) (hr : s.running = false) (hlen : ws.length ≤ 256)
    (hws : ∀ w ∈ ws, w ≤ 255) : loadProgram ws s = .accepted (startEngine (writeImage Config.loadBase ws s)) := by
  obtain ⟨hc, -⟩ | ⟨-, ⟨hlong, -⟩ | ⟨-, ⟨w, hw, hbad⟩, -⟩ | ⟨-, -, hacc⟩⟩ := loadProgram_cases ws s
  · exact absurd ⟨hl, hr⟩ hc
  · omega
  · exact absurd (hws w hw) (Nat.not_le.2 hbad)
  · exact hacc

/-- Inversion of an accepted load. -/
theorem loadProgram_accepted {ws : List Nat} (h : loadProgram ws s = .accepted t) :
    s.load = .awaiting ∧ s.running = false ∧ ws.length ≤ 256 ∧ (∀ w ∈ ws, w ≤ 255) ∧
      t = startEngine (writeImage Config.loadBase ws s) := by
  obtain ⟨-, he⟩ | ⟨⟨hl, hr⟩, ⟨-, he⟩ | ⟨-, -, he⟩ | ⟨hlen, hws, he⟩⟩ := loadProgram_cases ws s <;> rw [he] at h
  · cases h
  · cases h
  · cases h
  · cases h
    exact ⟨hl, hr, hlen, hws, rfl⟩

/-- Inversion of a refused load: only the load phase changes. -/
theorem loadProgram_refused {ws : List Nat} {r : LoadRefusal} (h : loadProgram ws s = .refused r t) :
    s.running = false ∧ t = { s with load := .refused r } := by
  obtain ⟨-, he⟩ | ⟨⟨-, hr⟩, ⟨-, he⟩ | ⟨-, -, he⟩ | ⟨-, -, he⟩⟩ := loadProgram_cases ws s <;> rw [he] at h
  · cases h
  · cases h
    exact ⟨hr, rfl⟩
  · cases h
    exact ⟨hr, rfl⟩
  · cases h

/-- The words an image leaves in memory: word `i` in cell `i`, and the cells past the image as they were. -/
theorem writeImage_loadBase {ws : List Nat} (hlen : ws.length ≤ 256) (hws : ∀ w ∈ ws, w ≤ 255)
    (hwf : Memory.wf s.mem = true) :
    ∃ m, writeImage Config.loadBase ws s = { s with mem := m } ∧ Memory.wf m = true ∧
      (∀ (i : Nat) (h : i < ws.length), (Memory.get m i).toNat = ws[i]) ∧
      ∀ i, ws.length ≤ i → Memory.get m i = s.byteAt i := by
  obtain ⟨m, hm, hmwf, hget⟩ := writeImage_spec ws Config.loadBase s (by simpa [Config.loadBase] using hlen) hwf
  refine ⟨m, hm, hmwf, fun i hi => ?inside, fun i hi => ?past⟩
  case inside =>
    have hle : ws[i] ≤ 255 := hws _ (List.getElem_mem hi)
    rw [hget, dif_pos ⟨Nat.zero_le i, hi⟩, BitVec.toNat_ofNat]
    exact Nat.mod_eq_of_lt (by simp only [Config.loadBase, Nat.sub_zero]; omega)
  case past => exact (hget i).trans (dif_neg fun hc => absurd hc.2 (Nat.not_lt.2 hi))

/-- Settles O42: the image is written cell by cell, and starting the engine touches no cell. -/
theorem loadPlacesTheImage : Obligations.LoadPlacesTheImage := by
  intro ws s hl hr hwf hlen hws
  obtain ⟨m, hm, hmwf, hinside, hpast⟩ := writeImage_loadBase hlen hws hwf
  refine ⟨_, loadProgram_accepts hl hr hlen hws, ?_⟩
  rw [hm]
  exact ⟨hinside, hpast, rfl, rfl, rfl, rfl, rfl, fun _ => rfl, rfl, rfl, rfl, hmwf⟩

/-- Settles O43: a refused core is HALTED and no longer awaits its load, so neither a step nor a load changes it. -/
theorem refusedLoadNeverRuns : Obligations.RefusedLoadNeverRuns := by
  intro ws s hl hr
  obtain ⟨hc, -⟩ | ⟨-, hcases⟩ := loadProgram_cases ws s
  · exact absurd ⟨hl, hr⟩ hc
  refine ⟨fun hlong => ?tooLong, fun hlen hbad => ?badWord, fun r t ht => ?after⟩
  case tooLong =>
    obtain ⟨-, he⟩ | ⟨hlen, -⟩ | ⟨hlen, -⟩ := hcases
    · exact he
    · omega
    · omega
  case badWord =>
    obtain ⟨hlong, -⟩ | ⟨-, -, he⟩ | ⟨-, hws, -⟩ := hcases
    · omega
    · exact he
    · obtain ⟨w, hw, hbig⟩ := hbad
      exact absurd (hws w hw) (Nat.not_le.2 hbig)
  case after =>
    obtain ⟨-, rfl⟩ := loadProgram_refused ht
    exact ⟨rfl, fun ws' => loadProgram_notAccepted_of_load ws' (by simp), fun k u hu => runsTo_halted hr hu⟩

theorem runsTo_load_eq {k : Nat} (h : runsTo k s t) : t.load = s.load :=
  runsTo_induction (P := fun s t => t.load = s.load) (fun _ => rfl)
    (fun _ _ _ hstep hrest => hrest.trans (step_params_load_eq hstep).2) k s t h

/-- Settles O44: the load phase is no longer awaiting after an accepted load, and no step sets it back. -/
theorem loadIsAcceptedOnce : Obligations.LoadIsAcceptedOnce := by
  refine ⟨fun _ => ⟨rfl, rfl⟩, ?accepts, ?declines, ?once, rfl, fun _ => rfl⟩
  case accepts =>
    intro ws s hl hr hlen hws
    exact ⟨_, loadProgram_accepts hl hr hlen hws, rfl, rfl⟩
  case declines =>
    intro ws s h
    refine loadProgram_notAccepted ws fun ⟨hl, hr⟩ => ?_
    simp [hl, hr] at h
  case once =>
    intro ws s t h k u hu ws'
    obtain ⟨-, -, -, -, rfl⟩ := loadProgram_accepted h
    exact loadProgram_notAccepted_of_load ws' (by simp [runsTo_load_eq hu])

/-- Settles O45: the run keeps the memory that the load wrote over the zeros of reset. -/
theorem memoryHoldsTheLoadedImage : Obligations.MemoryHoldsTheLoadedImage := by
  intro p ws t u k addr h hu haddr
  obtain ⟨-, -, hlen, hws, rfl⟩ := loadProgram_accepted h
  obtain ⟨m, hm, -, hinside, hpast⟩ := writeImage_loadBase (s := State.resetWith p) hlen hws rfl
  have hmem : u.mem = m := by rw [runsTo_mem_eq hu, startEngine_mem, hm]
  refine ⟨_, memRead_inside (by omega) u, ?_⟩
  rw [State.byteAt, hmem]
  by_cases hi : addr < ws.length
  · rw [hinside addr hi, List.getD_eq_getElem ws 0 hi]
  · rw [hpast addr (Nat.not_lt.1 hi), List.getD_eq_default ws 0 (Nat.not_lt.1 hi)]
    rfl

/-! ## The program file -/

theorem stripComment_stripComment (line : List Char) : stripComment (stripComment line) = stripComment line :=
  List.takeWhile_idem

theorem stripComment_cons {c : Char} (hc : c ≠ '#') (rest : List Char) :
    stripComment (c :: rest) = c :: stripComment rest :=
  List.takeWhile_cons_of_pos (by simpa using hc)

theorem parseLine_cons_skipped {c : Char} (hc : ¬ (c = '0' ∨ c = '1')) (rest : List Char) :
    parseLine (c :: rest) = .skipped := if_neg hc

/-- An included line is read from its text before the comment alone, and its first character stands before it. -/
theorem parseLine_stripComment (line : List Char) : parseLine (stripComment line) = parseLine line := by
  cases line with
  | nil => rfl
  | cons c rest =>
    by_cases hc : c = '0' ∨ c = '1'
    · have hne : c ≠ '#' := by rintro rfl; revert hc; decide
      have hstrip := stripComment_stripComment (c :: rest)
      rw [stripComment_cons hne] at hstrip ⊢
      simp only [parseLine, if_pos hc, hstrip, stripComment_cons hne]
    · rw [parseLine_cons_skipped hc]
      by_cases hne : c = '#'
      · subst hne
        rfl
      · rw [stripComment_cons hne, parseLine_cons_skipped hc]

theorem parseFile_cons_congr {line line' : List Char} {rest rest' : List (List Char)}
    (hline : parseLine line = parseLine line') (hrest : parseFile rest = parseFile rest') :
    parseFile (line :: rest) = parseFile (line' :: rest') := by
  simp only [parseFile, hline, hrest]

theorem parseFile_cons_skipped {line : List Char} (h : parseLine line = .skipped) (rest : List (List Char)) :
    parseFile (line :: rest) = parseFile rest := by
  simp only [parseFile, h]

/-- Settles O46, by induction on the lines: a comment changes nothing of what a line is read as, and other
lines are skipped. -/
theorem commentsDoNotChangeTheProgram : Obligations.CommentsDoNotChangeTheProgram := by
  refine ⟨fun lines => ?comments, fun before after line hline => ?skipped⟩
  case comments =>
    induction lines with
    | nil => rfl
    | cons line rest ih => exact parseFile_cons_congr (parseLine_stripComment line) ih
  case skipped =>
    have hskip : parseLine line = .skipped := by
      cases line with
      | nil => rfl
      | cons c rest =>
        obtain ⟨h0, h1⟩ := hline c rfl
        exact parseLine_cons_skipped (not_or.2 ⟨h0, h1⟩) rest
    induction before with
    | nil => exact parseFile_cons_skipped hskip after
    | cons l before ih => exact parseFile_cons_congr rfl ih

end Sys2Proof.Machine
end

section
/-! What each handler does when its operands name registers, what it raises when one does not, and the frame of both
(spec 41_data_output.md to 44_alu.md). -/

namespace Sys2Proof.Machine

variable {i : Instr} {s t : State} {a b : Byte}

/-! ## Operands of 8 or more -/

/-- The first operand is checked before anything else (R62, R89). -/
theorem exec_of_first_ge {rest : List Byte} (hi : i.regOperands = a :: rest) (ha : 8 ≤ a.toNat) (s : State) :
    exec i s = .next (raise (.outOfRange a s.pc) s) := by
  cases i with
  | hlt => cases hi
  | ldi | prn | cmp | jmp | jeq | jne | add | sub =>
    cases hi
    exact congrArg _ (withReg_of_ge ha s _)

/-- The second operand is checked once the first names a register (R62, R89). -/
theorem exec_of_second_ge (hi : i.regOperands = [a, b]) (ha : a.toNat < 8) (hb : 8 ≤ b.toNat) (s : State) :
    exec i s = .next (raise (.outOfRange b s.pc) s) := by
  cases i with
  | hlt | ldi | prn | jmp | jeq | jne => cases hi
  | cmp | add | sub =>
    cases hi
    exact congrArg _ ((withReg_of_lt ha s _).trans (withReg_of_ge hb s _))

/-- Settles O21: exec is total, and its effects write neither memory nor what no handler touches. -/
theorem everyInstructionCompletes : Obligations.EveryInstructionCompletes := by
  intro i s
  obtain ⟨t, ht⟩ := exec_total i s
  have heff := exec_effect ht
  exact ⟨t, ht, sameMemory_of_mem_eq heff.mem_eq, heff.sameOuter⟩

/-! ## PRN, CMP and HLT -/

/-- Settles O23: one value is appended and pc advances, and the check comes before the emit. -/
theorem printRegisterEffect : Obligations.PrintRegisterEffect := fun s _ =>
  ⟨fun ha => ⟨_, exec_prn ha, rfl, rfl, fun _ => rfl, rfl, fun _ => rfl, ⟨rfl, rfl⟩, ⟨rfl, rfl, rfl⟩⟩,
    fun ha => exec_of_first_ge rfl ha s⟩

theorem equalFlag_eq_true {u v : Byte} : equalFlag u v = true ↔ u = v := beq_iff_eq

/-- Settles O24: E is the comparison of the two registers read, which for one register is true. -/
theorem compareEffect : Obligations.CompareEffect := by
  intro s a b
  refine ⟨fun ha hb => ?effect, fun ha => exec_of_first_ge rfl ha s, fun ha hb => exec_of_second_ge rfl ha hb s⟩
  case effect =>
    refine ⟨_, exec_cmp ha hb, equalFlag_eq_true, fun hab => ?same, rfl, fun _ => rfl, rfl, fun _ => rfl, ⟨rfl, rfl⟩,
      ⟨rfl, rfl, rfl⟩⟩
    case same =>
      subst hab
      exact equalFlag_eq_true.2 rfl

/-- Settles O28: halting writes running and status, and pc advances by the one byte. -/
theorem haltEffect : Obligations.HaltEffect := fun s =>
  ⟨_, exec_hlt s, rfl, rfl, rfl, fun _ => rfl, rfl, rfl, fun _ => rfl, ⟨rfl, rfl, rfl⟩⟩

/-! ## Jumps -/

/-- What a jump, taken or not, leaves as it was: everything but pc. -/
def sameButPc (s t : State) : Prop :=
  sameRegs s t ∧ t.E = s.E ∧ t.out = s.out ∧ sameMemory s t ∧ sameControl s t ∧ sameOuter s t

theorem sameButPc_jumpTo (s : State) (v : Byte) : sameButPc s (s.jumpTo v) :=
  ⟨fun _ => rfl, rfl, rfl, fun _ => rfl, ⟨rfl, rfl⟩, ⟨rfl, rfl, rfl⟩⟩

theorem sameButPc_advance (s : State) (n : Nat) : sameButPc s (s.advance n) :=
  ⟨fun _ => rfl, rfl, rfl, fun _ => rfl, ⟨rfl, rfl⟩, ⟨rfl, rfl, rfl⟩⟩

/-- Settles O25: the target is a byte, so at most 255. -/
theorem jumpEffect : Obligations.JumpEffect := by
  intro s a
  refine ⟨fun ha => ⟨_, exec_jmp ha, rfl, ?bound, sameButPc_jumpTo s _⟩, fun ha => exec_of_first_ge rfl ha s⟩
  case bound => exact Nat.le_of_lt_succ (s.reg ⟨a.toNat, ha⟩).isLt

theorem sameButPc_ite (c : Bool) {u : State} (ht : sameButPc s t) (hu : sameButPc s u) :
    sameButPc s (if c then t else u) := by
  cases c with
  | true => exact ht
  | false => exact hu

/-- Settles O26, by the value of E; the operand check does not look at it. -/
theorem jumpIfEqualEffect : Obligations.JumpIfEqualEffect := by
  intro s a
  refine ⟨fun ha => ⟨_, exec_jeq ha, fun hE => ?taken, fun hE => ?untaken, ?frame⟩, fun ha => exec_of_first_ge rfl ha s⟩
  case taken => rw [hE, if_pos rfl, State.jumpTo_pc]
  case untaken => rw [hE, if_neg Bool.false_ne_true, State.advance_pc]
  case frame => exact sameButPc_ite s.E (sameButPc_jumpTo s _) (sameButPc_advance s 2)

/-- Settles O27, by the value of E; the operand check does not look at it. -/
theorem jumpIfNotEqualEffect : Obligations.JumpIfNotEqualEffect := by
  intro s a
  refine ⟨fun ha => ⟨_, exec_jne ha, fun hE => ?taken, fun hE => ?untaken, ?frame⟩, fun ha => exec_of_first_ge rfl ha s⟩
  case taken => rw [hE, if_neg Bool.false_ne_true, State.jumpTo_pc]
  case untaken => rw [hE, if_pos rfl, State.advance_pc]
  case frame => exact sameButPc_ite s.E (sameButPc_advance s 2) (sameButPc_jumpTo s _)

/-! ## The ALU -/

theorem exec_aluInstr_of_some {op : AluOp} {v : Byte} (ha : a.toNat < 8) (hb : b.toNat < 8)
    (hv : alu s.params.arithPolicy op (s.reg ⟨a.toNat, ha⟩) (s.reg ⟨b.toNat, hb⟩) = some v) :
    exec (aluInstr op a b) s = .next ((s.setReg ⟨a.toNat, ha⟩ v).advance 3) := by
  rw [exec_aluInstr, aluRegisters_of_lt op ha hb, hv]

theorem exec_aluInstr_of_none {op : AluOp} (ha : a.toNat < 8) (hb : b.toNat < 8)
    (hv : alu s.params.arithPolicy op (s.reg ⟨a.toNat, ha⟩) (s.reg ⟨b.toNat, hb⟩) = none) :
    exec (aluInstr op a b) s = .next (raise (.arithRange s.pc) s) := by
  rw [exec_aluInstr, aluRegisters_of_lt op ha hb, hv]

/-- What ADD and SUB do besides the result in register `d`: pc advances by 3, and nothing else changes. -/
def resultFrame (d : RegIx) (s t : State) : Prop :=
  sameRegsBut d s t ∧ t.pc = s.pc + 3 ∧ t.E = s.E ∧ t.out = s.out ∧ sameMemory s t ∧ sameControl s t ∧ sameOuter s t

theorem resultFrame_setReg (d : RegIx) (v : Byte) (s : State) : resultFrame d s ((s.setReg d v).advance 3) :=
  ⟨fun r hr => reg_setReg_of_ne s d r v hr, rfl, rfl, rfl, fun _ => rfl, ⟨rfl, rfl⟩, ⟨rfl, rfl, rfl⟩⟩

/-- An ALU instruction whose result `v` the ALU answers: the destination holds `v`, and the frame. -/
theorem exec_aluInstr_effect {op : AluOp} {v : Byte} (ha : a.toNat < 8) (hb : b.toNat < 8)
    (hv : alu s.params.arithPolicy op (s.reg ⟨a.toNat, ha⟩) (s.reg ⟨b.toNat, hb⟩) = some v) :
    ∃ t, exec (aluInstr op a b) s = .next t ∧ t.reg ⟨a.toNat, ha⟩ = v ∧ resultFrame ⟨a.toNat, ha⟩ s t :=
  ⟨_, exec_aluInstr_of_some ha hb hv, reg_setReg_same s _ v, resultFrame_setReg _ v s⟩

/-- Settles O29: the ALU's sum under `wrap`, written to the destination. -/
theorem addEffect : Obligations.AddEffect := by
  intro s a b
  refine ⟨fun ha hb hp => ?effect, fun ha => exec_of_first_ge rfl ha s, fun ha hb => exec_of_second_ge rfl ha hb s⟩
  case effect =>
    obtain ⟨v, hv, hsum⟩ := alu_wrap_add (s.reg ⟨a.toNat, ha⟩) (s.reg ⟨b.toNat, hb⟩)
    obtain ⟨t, ht, hreg, hframe⟩ := exec_aluInstr_effect (op := .add) ha hb (hp ▸ hv)
    exact ⟨t, ht, hreg ▸ hsum, hframe⟩

/-- Settles O30: the ALU's difference under `wrap`, written to the destination. -/
theorem subtractEffect : Obligations.SubtractEffect := by
  intro s a b
  refine ⟨fun ha hb hp => ?effect, fun ha => exec_of_first_ge rfl ha s, fun ha hb => exec_of_second_ge rfl ha hb s⟩
  case effect =>
    obtain ⟨v, hv, hdiff⟩ := alu_wrap_sub (s.reg ⟨a.toNat, ha⟩) (s.reg ⟨b.toNat, hb⟩)
    obtain ⟨t, ht, hreg, hframe⟩ := exec_aluInstr_effect (op := .sub) ha hb (hp ▸ hv)
    exact ⟨t, ht, hreg ▸ hdiff, hframe⟩

/-- Under `fault` the ALU answers the exact result where it lies in 0..255 (R75, R87). -/
theorem alu_fault_exact {op : AluOp} {u v : Byte} (h0 : 0 ≤ aluExact op u v) (h255 : aluExact op u v ≤ 255) :
    ∃ w, alu .fault op u v = some w ∧ (w.toNat : Int) = aluExact op u v := by
  refine ⟨BitVec.ofInt 8 (aluExact op u v), if_pos (by simp [aluInRange, h0, h255]), ?_⟩
  rw [BitVec.toNat_ofInt]
  omega

theorem exec_aluInstr_fault_exact {op : AluOp} (ha : a.toNat < 8) (hb : b.toNat < 8) (hp : s.params.arithPolicy = .fault)
    (h0 : 0 ≤ aluExact op (s.reg ⟨a.toNat, ha⟩) (s.reg ⟨b.toNat, hb⟩))
    (h255 : aluExact op (s.reg ⟨a.toNat, ha⟩) (s.reg ⟨b.toNat, hb⟩) ≤ 255) :
    ∃ t, exec (aluInstr op a b) s = .next t ∧
      ((t.reg ⟨a.toNat, ha⟩).toNat : Int) = aluExact op (s.reg ⟨a.toNat, ha⟩) (s.reg ⟨b.toNat, hb⟩) ∧
      resultFrame ⟨a.toNat, ha⟩ s t := by
  obtain ⟨v, hv, hexact⟩ := alu_fault_exact h0 h255
  obtain ⟨t, ht, hreg, hframe⟩ := exec_aluInstr_effect ha hb (hp ▸ hv)
  exact ⟨t, ht, hreg ▸ hexact, hframe⟩

/-- Settles O31: within the range the exact result is written, and outside it the ALU answers none. -/
theorem arithmeticUnderTheFaultPolicy : Obligations.ArithmeticUnderTheFaultPolicy := by
  intro s a b ha hb hp
  refine ⟨fun hsum => ?add, fun hsum => ?addRaises, fun hle => ?sub, fun hlt => ?subRaises⟩
  case add =>
    obtain ⟨t, ht, hexact, hframe⟩ := exec_aluInstr_fault_exact (op := .add) ha hb hp
      (by simp only [aluExact]; omega) (by simp only [aluExact]; omega)
    simp only [aluExact] at hexact
    exact ⟨t, ht, by omega, hframe⟩
  case addRaises => exact exec_aluInstr_of_none (op := .add) ha hb (alu_add_eq_none.2 ⟨hp, hsum⟩)
  case sub =>
    obtain ⟨t, ht, hexact, hframe⟩ := exec_aluInstr_fault_exact (op := .sub) ha hb hp
      (by simp only [aluExact]; omega) (by simp only [aluExact]; omega)
    simp only [aluExact] at hexact
    exact ⟨t, ht, by omega, hframe⟩
  case subRaises => exact exec_aluInstr_of_none (op := .sub) ha hb (alu_sub_eq_none.2 ⟨hp, hlt⟩)

theorem alu_wrap_add_eq (u v : Byte) : alu .wrap .add u v = some (u + v) := by
  simp only [alu, aluExact, BitVec.ofInt_add, BitVec.ofInt_natCast, BitVec.ofNat_toNat, BitVec.setWidth_eq]

theorem alu_wrap_sub_eq (u v : Byte) : alu .wrap .sub u v = some (u - v) := by
  simp only [alu, aluExact, Int.sub_eq_add_neg, BitVec.ofInt_add, BitVec.ofInt_neg, BitVec.ofInt_natCast,
    BitVec.ofNat_toNat, BitVec.setWidth_eq, BitVec.sub_eq_add_neg]

/-- Settles O32: under `wrap` the ALU adds and subtracts bit vectors, whose signed reading the library gives. -/
theorem arithmeticIsTheSameUnderASignedReading : Obligations.ArithmeticIsTheSameUnderASignedReading := fun u v =>
  ⟨⟨u + v, alu_wrap_add_eq u v, BitVec.toInt_add u v⟩, ⟨u - v, alu_wrap_sub_eq u v, BitVec.toInt_sub⟩⟩

theorem alu_add_zero (p : ArithPolicy) (u : Byte) : alu p .add u 0 = some u := by
  cases p with
  | wrap => rw [alu_wrap_add_eq, add_zero]
  | fault =>
    cases hv : alu .fault .add u 0 with
    | none => exact absurd (alu_add_eq_none.1 hv).2 (Nat.not_lt.2 (Nat.le_of_lt_succ u.isLt))
    | some w => rw [← alu_fault_some hv, alu_wrap_add_eq, add_zero]

theorem setReg_reg_self (s : State) (r : RegIx) : s.setReg r (s.reg r) = s := by
  simp [State.setReg, State.reg]

/-- Settles O33: the sum with 0 is the register's own value, so writing it changes nothing. -/
theorem addingZeroChangesOnlyThePc : Obligations.AddingZeroChangesOnlyThePc := by
  intro s a b ha hb hzero
  have hv : alu s.params.arithPolicy .add (s.reg ⟨a.toNat, ha⟩) (s.reg ⟨b.toNat, hb⟩) =
      some (s.reg ⟨a.toNat, ha⟩) := by
    rw [hzero, alu_add_zero]
  have hexec := exec_aluInstr_of_some (op := .add) ha hb hv
  rwa [setReg_reg_self] at hexec

/-! ## pc, registers and E -/

/-- Settles O34: of the effects of a well-formed instruction that neither transfers control nor raises, each advances pc by
the length of its encoding. -/
theorem pcAdvancesByTheLength : Obligations.PcAdvancesByTheLength := by
  intro m i s hwf harith hjmp hjeq hjne
  obtain ⟨t, ht⟩ := exec_total i s
  refine ⟨t, ht, ?_⟩
  rw [length_encodeWith]
  cases exec_effect ht with
  | outOfRange r hr h8 => exact absurd (Instr.wf_iff.1 hwf r hr) (Nat.not_lt.2 h8)
  | jumps a ha hi =>
    obtain hi | ⟨hi, hE⟩ | ⟨hi, hE⟩ := hi
    · exact absurd hi (hjmp a)
    · simp [hjeq a hi] at hE
    · simp [hjne a hi] at hE
  | arithRange op a b ha hb hi hv =>
    obtain ⟨hadd, hsub⟩ := harith (alu_none hv) a b ha hb
    cases op with
    | add => exact absurd (hadd hi) (Nat.not_le.2 (alu_add_eq_none.1 hv).2)
    | sub => exact absurd (hsub hi) (Nat.not_le.2 (alu_sub_eq_none.1 hv).2)
  | fallsThrough a ha hi => obtain ⟨rfl, -⟩ | ⟨rfl, -⟩ := hi <;> rfl
  | computes op a b v ha hb hi =>
    subst hi
    cases op <;> rfl
  | halts hi | loads _ _ _ hi | prints _ _ hi | compares _ _ _ _ hi =>
    subst hi
    rfl

/-- Settles O35: the effect that changed the register names it. -/
theorem onlyTheDestinationRegisterChanges : Obligations.OnlyTheDestinationRegisterChanges :=
  fun _ _ _ r h hne => ((exec_effect h).reg_cases r).resolve_left hne

/-- Settles O36: E is written by the effect of CMP alone, and handlers that do not read it do not see its old value. -/
theorem onlyCompareWritesTheEqualFlag : Obligations.OnlyCompareWritesTheEqualFlag := by
  refine ⟨fun s t h hne => ?writes, fun i s t v hjeq hjne h hcmp => ?unseen, fun a b s v ha hb => ?compare⟩
  case writes =>
    obtain ⟨-, ⟨-, rfl⟩ | ⟨-, -, rfl⟩ | ⟨-, k, hk, heff⟩⟩ := step_effect h
    · exact absurd rfl hne
    · exact absurd (recorded_E s) hne
    · obtain hE | ⟨a, b, hi⟩ := heff.E_cases
      · exact absurd (hE.trans (recorded_E s)) hne
      · exact hk.trans (congrArg some (eq_mnemonic_of_withOperands hi))
  case unseen =>
    refine (unseen_setE v).exec (fun a b hi => absurd hi (hcmp a b)) (fun a hi => ?_) (fun _ _ _ _ _ _ _ _ => rfl) h
    exact hi.elim (fun hi => absurd hi (hjeq a)) (fun hi => absurd hi (hjne a))
  case compare =>
    rw [exec_cmp ha hb, exec_cmp ha hb]
    rfl

end Sys2Proof.Machine
end

section
/-! What one step does, and what any number of steps keeps: dispatch (R59), the engine's states (R58), fatal conditions (R82,
R89), the trace record (R96), OUT (R26), and the self-jump (R66). -/

namespace Sys2Proof.Machine

variable {s t : State} {op a b : Byte}

/-! ## Dispatch -/

/-- Settles O11: the decoder's instruction is that of the entry that the dispatcher finds. -/
theorem stepRunsTheDecodedInstruction : Obligations.StepRunsTheDecodedInstruction := by
  intro s op a b i hr hf hi
  obtain ⟨k, hk, rfl⟩ := decodeFetched_eq_instr.1 hi
  exact step_of_fetches hr hf hk

/-- Settles O12: the byte at pc is the opcode, and the bytes after it begin with the operand bytes. -/
theorem encodedInstructionInMemoryRuns : Obligations.EncodedInstructionInMemoryRuns := by
  intro s i hr hm hp hbytes
  have hop : s.byteAt s.pc = s.params.opcodeMap.opcode i.mnemonic := hbytes 0 (by simp [encodeWith])
  have hoperands : i.operandBytes <+: [s.byteAt (s.pc + 1), s.byteAt (s.pc + 2)] := by
    have hcount : i.operandBytes.length ≤ 2 := i.length_operandBytes.trans_le i.mnemonic.operandCount_le_two
    refine List.prefix_iff_getElem.2 ⟨hcount, fun k hk => ?_⟩
    have hk' : i.operandBytes[k] = s.byteAt (s.pc + (k + 1)) :=
      (hbytes (k + 1) (by simpa [encodeWith] using hk)).symm
    obtain rfl | rfl : k = 0 ∨ k = 1 := by omega
    · exact hk'
    · exact hk'
  have hk : s.params.opcodeMap.lookup (s.byteAt s.pc) = some i.mnemonic := by
    rw [hop, OpcodeMap.lookup_opcode hm]
  rw [step_decoded hr hp hk, withOperands_mnemonic hoperands]

/-! ## The engine's states -/

/-- Settles O13: HALTED answers before any stage of the step, and LOAD looks at the load phase. -/
theorem haltedCoreTakesNoStep : Obligations.HaltedCoreTakesNoStep := fun _ hr =>
  ⟨step_halted hr, fun _ _ h => runsTo_halted hr h, fun hl ws => loadProgram_notAccepted_of_load ws hl⟩

/-- A step leaves the control state alone, runs HLT, or raises a fatal condition (R58). -/
theorem step_control_cases (h : step s = .next t) :
    sameControl s t ∨ (t.status = .halted ∧ s.params.opcodeMap.lookup (s.byteAt s.pc) = some .hlt) ∨
      ∃ c, t.status = .fatal c := by
  obtain ⟨-, ⟨-, rfl⟩ | ⟨-, -, rfl⟩ | ⟨-, k, hk, heff⟩⟩ := step_effect h
  · exact .inr (.inr ⟨_, rfl⟩)
  · exact .inr (.inr ⟨_, rfl⟩)
  · obtain ⟨hrunning, hstatus⟩ | ⟨hi, rfl⟩ | ⟨c, rfl⟩ := heff.control_cases
    · exact .inl ⟨hrunning.trans (recorded_running s), hstatus.trans (recorded_status s)⟩
    · exact .inr (.inl ⟨rfl, hk.trans (congrArg some (eq_mnemonic_of_withOperands hi))⟩)
    · exact .inr (.inr ⟨c, rfl⟩)

/-! ## Fatal conditions -/

/-- A step that ends in a fatal condition is one raise, in the state before the trace record or after it (R82, R88). -/
theorem step_fatal (hs : s.status = .none) (h : step s = .next t) {c : Condition} (ht : t.status = .fatal c) :
    c.pc = s.pc ∧ (t = raise c s ∨ t = raise c s.recorded) := by
  obtain ⟨-, ⟨-, rfl⟩ | ⟨-, -, rfl⟩ | ⟨-, k, -, heff⟩⟩ := step_effect h
  · obtain rfl := Status.fatal.inj ht
    exact ⟨rfl, .inl rfl⟩
  · obtain rfl := Status.fatal.inj ht
    exact ⟨rfl, .inr rfl⟩
  · obtain ⟨rfl, ⟨r, -, -, rfl⟩ | ⟨op, a, b, ha, hb, -, -, rfl⟩⟩ := heff.fatal_cases (by simpa) ht
    · exact ⟨recorded_pc s, .inr rfl⟩
    · exact ⟨recorded_pc s, .inr rfl⟩

/-- Settles O14: the load's and the step's inversions, and the halt that HLT's handler is. -/
theorem engineStateMachine : Obligations.EngineStateMachine := by
  refine ⟨fun _ => rfl, fun ws s t h => ?load, fun s t h => step_running h,
    fun ws s hl => loadProgram_notAccepted_of_load ws hl, fun s t h hr => ?ends, fun s op a b hr hf hk => ?hlt,
    fun s t c hs h ht => ⟨step_running h, ?fatal⟩⟩
  case load =>
    obtain ⟨-, hr, -, -, rfl⟩ := loadProgram_accepted h
    exact ⟨hr, rfl, rfl⟩
  case ends =>
    refine (step_control_cases h).resolve_left fun ⟨hrunning, _⟩ => ?_
    simp [hrunning, step_running h] at hr
  case hlt => exact ⟨_, step_of_fetches hr hf hk, rfl, rfl⟩
  case fatal =>
    obtain ⟨-, rfl | rfl⟩ := step_fatal hs h ht
    · rfl
    · rfl

/-- Settles O18: a raise, and the trace record before it, touch nothing of what the claim lists. -/
theorem fatalConditionIsPrecise : Obligations.FatalConditionIsPrecise := by
  intro s t c hs h ht
  obtain ⟨hpc, rfl | rfl⟩ := step_fatal hs h ht
  · exact ⟨hpc, rfl, fun _ => rfl, rfl, rfl, fun _ => rfl, rfl, rfl, rfl⟩
  · exact ⟨hpc, rfl, recorded_reg s, recorded_E s, recorded_pc s, recorded_byteAt s, recorded_out s, recorded_load s,
      recorded_params s⟩

theorem step_arithRange {k : Mnemonic} {aluOp : AluOp} (hr : s.running = true) (hf : fetches s op a b)
    (hk : s.params.opcodeMap.lookup op = some k) (hi : k.withOperands a b = aluInstr aluOp a b) (ha : a.toNat < 8)
    (hb : b.toNat < 8)
    (hv : alu s.params.arithPolicy aluOp (s.reg ⟨a.toNat, ha⟩) (s.reg ⟨b.toNat, hb⟩) = none) :
    step s = .next (raise (.arithRange s.pc) (emitTrace op a b s)) := by
  rw [step_of_fetches hr hf hk, hi, exec_aluInstr_of_none ha hb (by simpa using hv), emitTrace_pc]

/-- Settles O17: the fetch, the lookup, the two operand checks and the ALU are met in this order. -/
theorem fatalConditionPriority : Obligations.FatalConditionPriority := by
  intro s hr
  refine ⟨step_outside hr, fun op a b hf => ⟨step_of_fetches_unknown hr hf, ?first, ?second, ?add, ?sub⟩⟩
  case first =>
    intro k hk hne ha
    obtain ⟨rest, hrest⟩ := regOperands_withOperands hne a b
    rw [step_of_fetches hr hf hk, exec_of_first_ge hrest ha, emitTrace_pc]
  case second =>
    intro k hk hne ha hb
    have hoperands : (k.withOperands a b).regOperands = [a, b] := by obtain rfl | rfl | rfl := hne <;> rfl
    rw [step_of_fetches hr hf hk, exec_of_second_ge hoperands ha hb, emitTrace_pc]
  case add =>
    intro ha hb hk hp hsum
    exact step_arithRange (aluOp := .add) hr hf hk rfl ha hb (alu_add_eq_none.2 ⟨hp, hsum⟩)
  case sub =>
    intro ha hb hk hp hlt
    exact step_arithRange (aluOp := .sub) hr hf hk rfl ha hb (alu_sub_eq_none.2 ⟨hp, hlt⟩)

/-- The ALU instructions of the dispatcher: the entry is ADD's or SUB's, with the two operand bytes. -/
theorem withOperands_eq_aluInstr {k : Mnemonic} {aluOp : AluOp} {a' b' : Byte}
    (h : k.withOperands a b = aluInstr aluOp a' b') :
    a' = a ∧ b' = b ∧ (k = .add ∧ aluOp = .add ∨ k = .sub ∧ aluOp = .sub) := by
  cases aluOp with
  | add =>
    obtain rfl : k = .add := eq_mnemonic_of_withOperands h
    obtain ⟨rfl, rfl⟩ := Instr.add.inj h
    exact ⟨rfl, rfl, .inl ⟨rfl, rfl⟩⟩
  | sub =>
    obtain rfl : k = .sub := eq_mnemonic_of_withOperands h
    obtain ⟨rfl, rfl⟩ := Instr.sub.inj h
    exact ⟨rfl, rfl, .inr ⟨rfl, rfl⟩⟩

/-- Settles O19: the cause stands in the inversion of the step, and for a handler in that of its effect. -/
theorem fatalConditionHasItsCause : Obligations.FatalConditionHasItsCause := by
  intro s t c hs h ht
  obtain ⟨-, ⟨hp, rfl⟩ | ⟨hp, hk, rfl⟩ | ⟨hp, k, hk, heff⟩⟩ := step_effect h
  · obtain rfl := Status.fatal.inj ht
    exact ⟨hp, rfl⟩
  · obtain rfl := Status.fatal.inj ht
    exact ⟨rfl, hp, hk⟩
  · obtain ⟨-, ⟨r, hr, h8, rfl⟩ | ⟨op, a, b, ha, hb, hi, hv, rfl⟩⟩ := heff.fatal_cases (by simpa) ht
    · exact ⟨h8, hp, k, hk, hr⟩
    · simp only [recorded_reg, recorded_params] at hv
      obtain ⟨rfl, rfl, ⟨rfl, rfl⟩ | ⟨rfl, rfl⟩⟩ := withOperands_eq_aluInstr hi
      · obtain ⟨hfault, hsum⟩ := alu_add_eq_none.1 hv
        exact ⟨hfault, hp, ha, hb, .inl ⟨hk, hsum⟩⟩
      · obtain ⟨hfault, hlt⟩ := alu_sub_eq_none.1 hv
        exact ⟨hfault, hp, ha, hb, .inr ⟨hk, hlt⟩⟩

/-! ## The trace -/

/-- After the fetch a step adds nothing to the trace: the record stands before the handler runs (R96). -/
theorem step_trace (h : step s = .next t) (hp : s.pc ≤ 253) : t.trace = s.recorded.trace := by
  obtain ⟨-, ⟨hp', -⟩ | ⟨-, -, rfl⟩ | ⟨-, k, -, heff⟩⟩ := step_effect h
  · omega
  · rfl
  · obtain ⟨-, htrace, -⟩ := heff.sameOuter
    exact htrace

/-- Settles O20: the trace after a step is that of the record, and of a fetch above 253 that before it. -/
theorem oneTraceRecordPerFetch : Obligations.OneTraceRecordPerFetch := by
  intro s hr
  obtain ⟨t, ht⟩ := exists_step hr
  refine ⟨fun hon op a b hf => ⟨t, ht, ?record⟩, fun _ hp => ⟨_, step_outside hr hp, rfl⟩, fun hoff => ⟨t, ht, ?off⟩⟩
  case record => rw [step_trace ht hf.1, recorded_of_fetches hf, emitTrace_on op a b s hon]
  case off =>
    by_cases hp : s.pc ≤ 253
    · rw [step_trace ht hp, recorded_off hoff]
    · obtain rfl : raise _ s = t := Host.Outcome.next.inj ((step_outside hr (Nat.not_le.1 hp)).symm.trans ht)
      rfl

/-! ## OUT -/

/-- A step leaves OUT alone, or runs PRN and appends one value (R26). -/
theorem step_out_cases (h : step s = .next t) :
    t.out = s.out ∨ (s.params.opcodeMap.lookup (s.byteAt s.pc) = some .prn ∧ ∃ v, t.out = s.out ++ [v]) := by
  obtain ⟨-, ⟨-, rfl⟩ | ⟨-, -, rfl⟩ | ⟨-, k, hk, heff⟩⟩ := step_effect h
  · exact .inl rfl
  · exact .inl (recorded_out s)
  · rw [← recorded_out s]
    obtain hout | ⟨a, v, hi, hout⟩ := heff.out_cases
    · exact .inl hout
    · exact .inr ⟨hk.trans (congrArg some (eq_mnemonic_of_withOperands hi)), v, hout⟩

theorem step_out_prefix (h : step s = .next t) : s.out <+: t.out := by
  obtain hout | ⟨-, v, hout⟩ := step_out_cases h <;> rw [hout]
  exact List.prefix_append _ _

theorem runsTo_out_prefix {k : Nat} (h : runsTo k s t) : s.out <+: t.out :=
  runsTo_induction (P := fun s t => s.out <+: t.out) (fun _ => List.prefix_rfl)
    (fun _ _ _ hstep hrest => (step_out_prefix hstep).trans hrest) k s t h

/-- Settles O41: the inversions of a step say what it makes of OUT, and a run only ever appends. -/
theorem outputOnlyGrows : Obligations.OutputOnlyGrows := by
  refine ⟨rfl, fun out v => ?console, fun s t h hne => (step_out_cases h).resolve_left hne,
    fun s op a b ha hr hf hk => ?prints, fun s t c hs h ht => ?fatal, fun _ _ _ => runsTo_out_prefix⟩
  case console => simp [consoleText]
  case prints =>
    have hstep := (step_of_fetches hr hf hk).trans (exec_prn (s := emitTrace op a b s) ha)
    exact ⟨_, hstep, by simp⟩
  case fatal =>
    obtain ⟨-, rfl | rfl⟩ := step_fatal hs h ht
    · rfl
    · exact recorded_out s

/-! ## The self-jump -/

theorem jumpTo_self {v : Byte} (h : v.toNat = s.pc) : s.jumpTo v = s := by
  simp [State.jumpTo, h]

theorem fetches_emitTrace {op' a' b' : Byte} : fetches (emitTrace op a b s) op' a' b' ↔ fetches s op' a' b' := by
  simp [fetches]

/-- The step of a JMP to its own address records its bytes and changes nothing else. -/
theorem step_self_jump (ha : a.toNat < 8) (hr : s.running = true) (hf : fetches s s.params.opcodeMap.jmp a b)
    (hm : s.params.opcodeMap.wf = true) (hself : (s.reg ⟨a.toNat, ha⟩).toNat = s.pc) :
    step s = .next (emitTrace s.params.opcodeMap.jmp a b s) := by
  have hk : s.params.opcodeMap.lookup s.params.opcodeMap.jmp = some .jmp := OpcodeMap.lookup_opcode hm .jmp
  refine (step_of_fetches hr hf hk).trans ((exec_jmp ha).trans (congrArg _ (jumpTo_self ?_)))
  rw [emitTrace_reg, emitTrace_pc, hself]

/-- Settles O52, by induction on the number of steps: after the trace record the core is where it was. -/
theorem selfJumpRunsForever : Obligations.SelfJumpRunsForever := by
  intro s a b ha hr hf hm hself k
  induction k generalizing s with
  | zero => exact ⟨s, runsTo_zero.2 rfl, hr, rfl, fun _ => rfl, rfl⟩
  | succ k ih =>
    have hstep := step_self_jump ha hr hf hm hself
    obtain ⟨t, ht, hrunning, hpc, hregs, hout⟩ := ih (emitTrace s.params.opcodeMap.jmp a b s) (by simpa)
      (by simpa [fetches_emitTrace] using hf) (by simpa) (by simpa)
    refine ⟨t, runsTo_succ.2 ⟨_, hstep, ht⟩, hrunning, ?_, fun r => ?_, ?_⟩
    · rw [hpc, emitTrace_pc]
    · rw [hregs r, emitTrace_reg]
    · rw [hout, emitTrace_out]

end Sys2Proof.Machine
end

section
/-! The assembler's text (R55, decision D12): a printed instruction is cut into the words it was put together from, and its
registers and its immediate read back. -/

namespace Sys2Proof.Machine

/-! ## Words -/

/-- A character that does not end a word: no white space, comma or colon. -/
def isWordChar (c : Char) : Bool := !isBlankChar c && c ≠ ',' && c ≠ ':'

theorem wordsFrom_cons {c : Char} (hc : isWordChar c = true) (cur rest : List Char) :
    wordsFrom cur (c :: rest) = wordsFrom (cur ++ [c]) rest := by
  obtain ⟨⟨hblank, hcomma⟩, hcolon⟩ : (isBlankChar c = false ∧ c ≠ ',') ∧ c ≠ ':' := by simpa [isWordChar] using hc
  rw [wordsFrom, if_neg (by simp [hblank]), if_neg (by simp [hcomma, hcolon])]

/-- Characters of a word that are read are pending until the word ends. -/
theorem wordsFrom_append {w : List Char} (hw : w.all isWordChar = true) (cur rest : List Char) :
    wordsFrom cur (w ++ rest) = wordsFrom (cur ++ w) rest := by
  induction w generalizing cur with
  | nil => simp
  | cons c w ih =>
    rw [List.all_cons, Bool.and_eq_true] at hw
    obtain ⟨hc, hw⟩ := hw
    rw [List.cons_append, wordsFrom_cons hc, ih hw, List.append_assoc, List.singleton_append]

theorem flushWord_of_ne_nil {w : List Char} (h : w ≠ []) : flushWord w = [w] := if_neg (by simpa using h)

/-- A line is one word, or a word and what follows the blank or the comma that ends it. -/
theorem lineWords_word {w : List Char} (hw : w.all isWordChar = true) (hne : w ≠ []) : lineWords w = [w] := by
  have h := wordsFrom_append hw [] []
  rw [List.append_nil, List.nil_append] at h
  exact h.trans (flushWord_of_ne_nil hne)

theorem lineWords_word_blank {w : List Char} (hw : w.all isWordChar = true) (hne : w ≠ []) (rest : List Char) :
    lineWords (w ++ ' ' :: rest) = w :: lineWords rest := by
  rw [lineWords, wordsFrom_append hw, List.nil_append, wordsFrom, if_pos (by decide), flushWord_of_ne_nil hne]
  rfl

theorem lineWords_blank (rest : List Char) : lineWords (' ' :: rest) = lineWords rest := rfl

theorem lineWords_word_comma {w : List Char} (hw : w.all isWordChar = true) (hne : w ≠ []) (rest : List Char) :
    lineWords (w ++ ',' :: rest) = w :: [','] :: lineWords rest := by
  rw [lineWords, wordsFrom_append hw, List.nil_append, wordsFrom, if_neg (by decide), if_pos (.inl rfl),
    flushWord_of_ne_nil hne]
  rfl

/-! ## Numbers in decimal -/

theorem isWordChar_of_isDigit {c : Char} (h : c.isDigit = true) : isWordChar c = true := by
  have hne : ∀ d : Char, d.isDigit = false → c ≠ d := fun d hd hcd => by simp [← hcd, h] at hd
  simp [isWordChar, isBlankChar, hne ' ' rfl, hne '\t' rfl, hne '\r' rfl, hne '\n' rfl, hne ',' rfl, hne ':' rfl]

theorem digitValue_of_isDigit {c : Char} (h : c.isDigit = true) :
    digitValue c = some (c.toNat - 48) ∧ c.toNat - 48 < 10 := by
  have hrange : 48 ≤ c.toNat ∧ c.toNat ≤ 57 := by
    simpa [Char.isDigit, UInt32.le_iff_toNat_le] using h
  exact ⟨if_pos hrange, by omega⟩

/-- Reading decimal digits is the library's value of a list of digits. -/
theorem readDigits_ten {cs : List Char} (h : ∀ c ∈ cs, c.isDigit = true) (acc : Nat) :
    readDigits 10 acc cs = some (Nat.ofDigitChars 10 cs acc) := by
  induction cs generalizing acc with
  | nil => rfl
  | cons c cs ih =>
    obtain ⟨hvalue, hlt⟩ := digitValue_of_isDigit (h c List.mem_cons_self)
    simp only [readDigits, hvalue, if_pos hlt, ih fun d hd => h d (List.mem_cons_of_mem c hd), Nat.ofDigitChars_cons]
    rfl

/-- A number of decimal digits alone has no `0x` or `0b` before it. -/
theorem readNumber_of_isDigit {cs : List Char} (hne : cs ≠ []) (h : ∀ c ∈ cs, c.isDigit = true) :
    readNumber cs = readDigits 10 0 cs := by
  cases cs with
  | nil => exact absurd rfl hne
  | cons c cs =>
    simp only [readNumber]
    split
    · exact absurd (h 'x' (by simp)) (by decide)
    · exact absurd (h 'b' (by simp)) (by decide)
    · rfl

theorem isDigit_toDigits {n : Nat} {c : Char} (hc : c ∈ Nat.toDigits 10 n) : c.isDigit = true :=
  Nat.isDigit_of_mem_toDigits (by decide) (by decide) hc

theorem all_isWordChar_toDigits (n : Nat) : (Nat.toDigits 10 n).all isWordChar = true :=
  List.all_eq_true.2 fun _ hc => isWordChar_of_isDigit (isDigit_toDigits hc)

theorem readNumber_toDigits (n : Nat) : readNumber (Nat.toDigits 10 n) = some n := by
  rw [readNumber_of_isDigit Nat.toDigits_ne_nil fun _ => isDigit_toDigits, readDigits_ten fun _ => isDigit_toDigits,
    Nat.ofDigitChars_ten_toDigits]

/-! ## Operands -/

/-- The name of a register that exists. -/
def registerName (b : Byte) : List Char := 'R' :: Nat.toDigits 10 b.toNat

theorem registerText_of_lt {b : Byte} (h : b.toNat < 8) : registerText b = some (registerName b) := if_pos h

theorem registerName_ne_nil (b : Byte) : registerName b ≠ [] := List.cons_ne_nil _ _

theorem all_isWordChar_registerName (b : Byte) : (registerName b).all isWordChar = true :=
  all_isWordChar_toDigits b.toNat

/-- The one form of a register's name that R0 to R7 take. -/
theorem readRegister_R {c : Char} {d : Nat} (hc : digitValue c = some d) (hd : d < 8) :
    readRegister ['R', c] = some (BitVec.ofNat 8 d) := by
  change (match digitValue c with
    | some d => if d < 8 then some (BitVec.ofNat 8 d) else none
    | none => none) = _
  rw [hc]
  exact if_pos hd

theorem readRegister_registerName {b : Byte} (h : b.toNat < 8) : readRegister (registerName b) = some b := by
  have hlt : b.toNat < 10 := by omega
  obtain ⟨hvalue, -⟩ := digitValue_of_isDigit (c := Nat.digitChar b.toNat) (by simp [Nat.isDigit_digitChar, hlt])
  rw [Nat.toNat_digitChar_sub_48_of_lt_ten hlt] at hvalue
  rw [registerName, Nat.toDigits_of_lt_base hlt, readRegister_R hvalue h, BitVec.ofNat_toNat, BitVec.setWidth_eq]

theorem readImmediate_toDigits (a imm : Byte) :
    readImmediate a (Nat.toDigits 10 imm.toNat) = some (.instr (.ldi a imm)) := by
  have hnumber := readNumber_toDigits imm.toNat
  cases hcs : Nat.toDigits 10 imm.toNat with
  | nil => exact absurd hcs Nat.toDigits_ne_nil
  | cons c cs =>
    obtain ⟨hvalue, hlt⟩ := digitValue_of_isDigit (isDigit_toDigits (n := imm.toNat) (c := c) (hcs ▸ List.mem_cons_self))
    have hle : imm.toNat < 256 := imm.isLt
    rw [hcs] at hnumber
    simp [readImmediate, hvalue, hlt, hnumber, Nat.le_of_lt_succ hle]

/-! ## Statements -/

/-- The word an instruction's line begins with (R49, R55). -/
def mnemonicText : Mnemonic → List Char
  | .hlt => ['H', 'L', 'T']
  | .ldi => ['L', 'D', 'I']
  | .prn => ['P', 'R', 'N']
  | .cmp => ['C', 'M', 'P']
  | .jmp => ['J', 'M', 'P']
  | .jeq => ['J', 'E', 'Q']
  | .jne => ['J', 'N', 'E']
  | .add => ['A', 'D', 'D']
  | .sub => ['S', 'U', 'B']

theorem mnemonicText_ne_nil (k : Mnemonic) : mnemonicText k ≠ [] := by
  cases k <;> decide

theorem all_isWordChar_mnemonicText (k : Mnemonic) : (mnemonicText k).all isWordChar = true := by
  cases k <;> decide

theorem lineWords_one_register (k : Mnemonic) (a : Byte) :
    lineWords (mnemonicText k ++ ' ' :: registerName a) = [mnemonicText k, registerName a] := by
  rw [lineWords_word_blank (all_isWordChar_mnemonicText k) (mnemonicText_ne_nil k),
    lineWords_word (all_isWordChar_registerName a) (registerName_ne_nil a)]

theorem lineWords_two_operands (k : Mnemonic) (a : Byte) {w : List Char} (hw : w.all isWordChar = true) (hne : w ≠ []) :
    lineWords (mnemonicText k ++ ' ' :: (registerName a ++ ',' :: ' ' :: w)) =
      [mnemonicText k, registerName a, [','], w] := by
  rw [lineWords_word_blank (all_isWordChar_mnemonicText k) (mnemonicText_ne_nil k),
    lineWords_word_comma (all_isWordChar_registerName a) (registerName_ne_nil a), lineWords_blank, lineWords_word hw hne]

/-- An instruction printed as its mnemonic and one register reads back when its two words do. -/
theorem reads_back_of_one_register {i : Instr} {a : Byte}
    (htext : instrText i = some (mnemonicText i.mnemonic ++ ' ' :: registerName a))
    (hread : readStatement [mnemonicText i.mnemonic, registerName a] = some (.instr i)) :
    ∃ text, instrText i = some text ∧ readStatement (lineWords text) = some (.instr i) :=
  ⟨_, htext, (congrArg readStatement (lineWords_one_register i.mnemonic a)).trans hread⟩

/-- An instruction printed as its mnemonic, a register and a second operand reads back when its four words do. -/
theorem reads_back_of_two_operands {i : Instr} {a : Byte} {w : List Char} (hw : w.all isWordChar = true) (hne : w ≠ [])
    (htext : instrText i = some (mnemonicText i.mnemonic ++ ' ' :: (registerName a ++ ',' :: ' ' :: w)))
    (hread : readStatement [mnemonicText i.mnemonic, registerName a, [','], w] = some (.instr i)) :
    ∃ text, instrText i = some text ∧ readStatement (lineWords text) = some (.instr i) :=
  ⟨_, htext, (congrArg readStatement (lineWords_two_operands i.mnemonic a hw hne)).trans hread⟩

/-- Settles O8: the words of a printed instruction are its mnemonic and its operands, and each operand reads back. -/
theorem printedAssemblyReadsBack : Obligations.PrintedAssemblyReadsBack := by
  intro i hwf
  have hregs := Instr.wf_iff.1 hwf
  cases i with
  | hlt => exact ⟨_, rfl, by decide⟩
  | prn a | jmp a | jeq a | jne a =>
    have ha : a.toNat < 8 := hregs a List.mem_cons_self
    refine reads_back_of_one_register (a := a) ?_ ?_
    · simp [instrText, registerText_of_lt ha, mnemonicText, Instr.mnemonic]
    · simp [readStatement, readRegister_registerName ha, mnemonicText, Instr.mnemonic]
  | ldi a imm =>
    have ha : a.toNat < 8 := hregs a List.mem_cons_self
    refine reads_back_of_two_operands (a := a) (all_isWordChar_toDigits imm.toNat) Nat.toDigits_ne_nil ?_ ?_
    · simp [instrText, registerText_of_lt ha, mnemonicText, Instr.mnemonic]
    · simp [readStatement, readRegister_registerName ha, readImmediate_toDigits, mnemonicText, Instr.mnemonic]
  | cmp a b | add a b | sub a b =>
    have ha : a.toNat < 8 := hregs a List.mem_cons_self
    have hb : b.toNat < 8 := hregs b (List.mem_cons_of_mem a List.mem_cons_self)
    refine reads_back_of_two_operands (a := a) (all_isWordChar_registerName b) (registerName_ne_nil b) ?_ ?_
    · simp [instrText, registerText_of_lt ha, registerText_of_lt hb, mnemonicText, Instr.mnemonic]
    · simp [readStatement, readRegister_registerName ha, readRegister_registerName hb, mnemonicText, Instr.mnemonic]

end Sys2Proof.Machine
end
